-- ==== Sys2Proof/Word.lean ====
section
/-! DEFINITION. The words of the core: bytes, 16-bit words and 4-bit digits (spec 00_scope.md R13, R14).
Every value is unsigned; arithmetic on these types wraps modulo 2^width. -/

namespace Sys2Proof

/-- An 8-bit value: a general register, a timer, a byte of memory (R14, R21). -/
abbrev Byte := BitVec 8

/-- A 16-bit value: I, pc, a stack entry, an address, an opcode (R14, R24, R25, R28, R70). -/
abbrev Word := BitVec 16

/-- A 4-bit field of an opcode (R19, R72). -/
abbrev Digit := BitVec 4

/-- A 12-bit address field of an opcode, `NNN` (R72, R74). -/
abbrev Addr12 := BitVec 12

end Sys2Proof
end

