-- ==== Sys2Proof/Config.lean ====
section
/-! DEFINITION. The fixed sizes of the hardware (spec 00_scope.md R8), its parameters (R9 to R11), and the free
values: the random draws of `CXNN` (R12) and the open instruction rate (R9, D18). -/

namespace Sys2Proof

/-- `MEM_SIZE`: 4096 bytes, addresses 0x000 to 0xFFF (R8). -/
def memSize : Nat := 4096

/-- `ROM_BASE`: where the loader puts a program and where pc starts (R8, R25). -/
def romBase : Nat := 0x200

/-- `ROM_MAX`: the longest program the loader accepts, 4096 − 0x200 bytes (R8, R34). -/
def romMax : Nat := 3584

/-- `FONT_SIZE`: the font table's 80 bytes, at 0x000 (R8, R11). -/
def fontSize : Nat := 80

/-- `STACK_DEPTH`: entries of the return stack (R8, R27). -/
def stackDepth : Nat := 16

/-- `DISPLAY_W`: pixels in a row (R8, R35). -/
def displayW : Nat := 64

/-- `DISPLAY_H`: rows of the display (R8, R35). -/
def displayH : Nat := 32

/-- `TICK_HZ`: ticks per second of host time, the divisor that turns IPS into steps per tick (R8, R9). -/
def tickHz : Nat := 60

/-- `SHR_FLAG_MASK`: the two values R10 names. -/
inductive ShrFlagMask
  /-- 0x01, this hardware's value: the flag of `8XY6` is bit 0. -/
  | lowBit
  /-- 0x0F, the reference-compatible alternative: the flag is the low nibble. -/
  | lowNibble
deriving DecidableEq, Repr

/-- The mask byte that a value of the parameter stands for (R10). -/
def ShrFlagMask.byte : ShrFlagMask → Byte
  | .lowBit => 0x01
  | .lowNibble => 0x0F

/-- The parameters fixed for a run (R9 to R11, R38). -/
structure Config where
  /-- `IPS`, instructions per second (R9). -/
  ips : Nat
  /-- `SHR_FLAG_MASK` (R10). -/
  shrFlagMask : ShrFlagMask
  /-- `FONT_TABLE`, the 80 glyph bytes (R11). -/
  fontTable : Vector Byte 80
deriving DecidableEq, Repr

/-- `STEPS_PER_TICK = floor(IPS / 60)` (R9). -/
def Config.stepsPerTick (c : Config) : Nat := c.ips / tickHz

/-- What a byte of memory holds after a LOAD of no bytes, and so what an address that memory does not list reads as:
the font at 0x000 to 0x04F, zero elsewhere (R34, R58). -/
def Config.resetByte (c : Config) (a : Nat) : Byte :=
  if h : a < 80 then c.fontTable[a] else 0

/-- FREE VALUE (log 4): the `n`-th random draw, one per execution of `CXNN`; any value, under no law (R12, R178). -/
opaque Config.randomByte : Nat → Byte

/-- FREE VALUE (log 6): the instruction rate, to which the spec gives no value (R9, D18). -/
opaque Config.openIps : Nat

/-- PRESUMED (log 7), unsafe where a claim reads glyph bytes: the conventional CHIP-8 font, the default of the
parameter `FONT_TABLE` (R36, from general knowledge, not in the source). Five bytes a glyph, glyphs 0 to F. -/
def Config.defaultFont : Vector Byte 80 := #v[
  0xF0, 0x90, 0x90, 0x90, 0xF0,  0x20, 0x60, 0x20, 0x20, 0x70,
  0xF0, 0x10, 0xF0, 0x80, 0xF0,  0xF0, 0x10, 0xF0, 0x10, 0xF0,
  0x90, 0x90, 0xF0, 0x10, 0x10,  0xF0, 0x80, 0xF0, 0x10, 0xF0,
  0xF0, 0x80, 0xF0, 0x90, 0xF0,  0xF0, 0x10, 0x20, 0x40, 0x40,
  0xF0, 0x90, 0xF0, 0x90, 0xF0,  0xF0, 0x90, 0xF0, 0x10, 0xF0,
  0xF0, 0x90, 0xF0, 0x90, 0x90,  0xE0, 0x90, 0xE0, 0x90, 0xE0,
  0xF0, 0x80, 0x80, 0x80, 0xF0,  0xE0, 0x90, 0x90, 0x90, 0xE0,
  0xF0, 0x80, 0xF0, 0x80, 0xF0,  0xF0, 0x80, 0xF0, 0x80, 0x80]

/-- This hardware's parameters: the flag mask 0x01 (R10, C5), the default font (R36), the rate left open (R9). -/
def Config.thisHardware : Config :=
  { ips := Config.openIps, shrFlagMask := .lowBit, fontTable := Config.defaultFont }

end Sys2Proof
end

