-- ==== Sys2Proof/Syntax.lean ====
section
/-! DEFINITION. The instructions: one constructor for each of the 34 rows of spec/opcode_table.json, in the table's
order (spec 30_encoding.md R89). A field is the number the opcode holds (R72 to R74). -/

namespace Sys2Proof

/-- A register number `X` or `Y`, naming V0 to VF (R21, R74). -/
abbrev Reg := Fin 16

/-- VF, the register that takes the flags (R22). -/
abbrev Reg.vf : Reg := 15

/-- An instruction. The constructor's comment gives the form and its rule. -/
inductive Instr
  /-- `00E0` (R100). -/
  | cls
  /-- `00EE` (R120). -/
  | ret
  /-- `1NNN` (R121). -/
  | jp (nnn : Addr12)
  /-- `2NNN` (R122). -/
  | call (nnn : Addr12)
  /-- `3XNN` (R140). -/
  | seImm (x : Reg) (nn : Byte)
  /-- `4XNN` (R141). -/
  | sneImm (x : Reg) (nn : Byte)
  /-- `5XY0` (R142). -/
  | seReg (x y : Reg)
  /-- `6XNN` (R161). -/
  | ldImm (x : Reg) (nn : Byte)
  /-- `7XNN` (R162). -/
  | addImm (x : Reg) (nn : Byte)
  /-- `8XY0` (R165). -/
  | ldReg (x y : Reg)
  /-- `8XY1` (R166). -/
  | orReg (x y : Reg)
  /-- `8XY2` (R167). -/
  | andReg (x y : Reg)
  /-- `8XY3` (R168). -/
  | xorReg (x y : Reg)
  /-- `8XY4` (R170). -/
  | addReg (x y : Reg)
  /-- `8XY5` (R171). -/
  | subReg (x y : Reg)
  /-- `8XY6` (R173); Y is encoded and not read (R87). -/
  | shr (x y : Reg)
  /-- `8XY7` (R172). -/
  | subnReg (x y : Reg)
  /-- `8XYE` (R175); Y is encoded and not read (R87). -/
  | shl (x y : Reg)
  /-- `9XY0` (R143). -/
  | sneReg (x y : Reg)
  /-- `ANNN` (R200). -/
  | ldI (nnn : Addr12)
  /-- `BNNN` (R123). -/
  | jpV0 (nnn : Addr12)
  /-- `CXNN` (R178). -/
  | rnd (x : Reg) (nn : Byte)
  /-- `DXYN` (R102); `n` is the count of sprite rows, 0 to 15 in a well-formed instruction. -/
  | drw (x y : Reg) (n : Nat)
  /-- `EX9E` (R231). -/
  | skp (x : Reg)
  /-- `EXA1` (R232). -/
  | sknp (x : Reg)
  /-- `FX07` (R250). -/
  | ldVxDt (x : Reg)
  /-- `FX0A` (R234). -/
  | ldVxK (x : Reg)
  /-- `FX15` (R251). -/
  | ldDtVx (x : Reg)
  /-- `FX18` (R252). -/
  | ldStVx (x : Reg)
  /-- `FX1E` (R201). -/
  | addI (x : Reg)
  /-- `FX29` (R202). -/
  | ldF (x : Reg)
  /-- `FX33` (R203). -/
  | ldB (x : Reg)
  /-- `FX55` (R205). -/
  | storeRegs (x : Reg)
  /-- `FX65` (R206). -/
  | loadRegs (x : Reg)
deriving DecidableEq, Repr

end Sys2Proof
end

