-- ==== Sys2Proof/WellFormed.lean ====
section
/-! DEFINITION. What the types of the fields do not already say: an instruction is well formed when its row count fits
the 4-bit field `N` (spec 30_encoding.md R74), a program when it fits between 0x200 and the end of memory
(10_state.md R34). Register numbers, `NN` and `NNN` have exactly the width of their fields by type. -/

namespace Sys2Proof

/-- The instruction has an encoding: `N` is 0 to 15 (R74). One arm a constructor. -/
def Instr.wellFormed : Instr → Bool
  | .cls => true
  | .ret => true
  | .jp _ => true
  | .call _ => true
  | .seImm _ _ => true
  | .sneImm _ _ => true
  | .seReg _ _ => true
  | .ldImm _ _ => true
  | .addImm _ _ => true
  | .ldReg _ _ => true
  | .orReg _ _ => true
  | .andReg _ _ => true
  | .xorReg _ _ => true
  | .addReg _ _ => true
  | .subReg _ _ => true
  | .shr _ _ => true
  | .subnReg _ _ => true
  | .shl _ _ => true
  | .sneReg _ _ => true
  | .ldI _ => true
  | .jpV0 _ => true
  | .rnd _ _ => true
  | .drw _ _ n => decide (n < 16)
  | .skp _ => true
  | .sknp _ => true
  | .ldVxDt _ => true
  | .ldVxK _ => true
  | .ldDtVx _ => true
  | .ldStVx _ => true
  | .addI _ => true
  | .ldF _ => true
  | .ldB _ => true
  | .storeRegs _ => true
  | .loadRegs _ => true

/-- The program fits: "ROM length ≤ 4096 − 0x200" (R34, R303). -/
def romFits (rom : List Byte) : Bool := decide (rom.length ≤ romMax)

end Sys2Proof
end

