-- ==== Sys2Proof/Decode.lean ====
section
/-! DEFINITION. The one instruction format: fields, decoder, encoder and the opcode table's match and mask
(spec 30_encoding.md R70 to R74, R84 to R89). A form matches only when every fixed digit is equal (R86); every other
opcode is rejected by name and the step runs it as a no-op (R79). -/

namespace Sys2Proof

/-- Bits 15:12, the primary opcode (R72, R84). -/
def opField (op : Word) : Digit := op.extractLsb' 12 4

/-- `X`, bits 11:8 (R73). -/
def xField (op : Word) : Reg := (op.extractLsb' 8 4).toFin

/-- `Y`, bits 7:4 (R73). -/
def yField (op : Word) : Reg := (op.extractLsb' 4 4).toFin

/-- `N`, bits 3:0 (R73). -/
def nField (op : Word) : Digit := op.extractLsb' 0 4

/-- `NN`, bits 7:0 (R73). -/
def nnField (op : Word) : Byte := op.extractLsb' 0 8

/-- `NNN`, bits 11:0 (R73). -/
def nnnField (op : Word) : Addr12 := op.extractLsb' 0 12

/-- Why the decoder gives no instruction. -/
inductive Reject
  /-- The opcode matches no form: the table's "other" row, a no-op (R79, R88). -/
  | unimplemented (op : Word)
  /-- Fewer than the two bytes that every instruction has (R70). -/
  | truncated
deriving DecidableEq, Repr

/-- Group 0x0: the whole opcode is fixed (R85, R86). -/
def decodeGroup0 (op : Word) : Except Reject Instr :=
  match op.toNat with
  | 0x00E0 => .ok .cls
  | 0x00EE => .ok .ret
  | _ => .error (.unimplemented op)

/-- Group 0x8: selected by `N` (R85). -/
def decodeGroup8 (op : Word) : Except Reject Instr :=
  match (nField op).toNat with
  | 0x0 => .ok (.ldReg (xField op) (yField op))
  | 0x1 => .ok (.orReg (xField op) (yField op))
  | 0x2 => .ok (.andReg (xField op) (yField op))
  | 0x3 => .ok (.xorReg (xField op) (yField op))
  | 0x4 => .ok (.addReg (xField op) (yField op))
  | 0x5 => .ok (.subReg (xField op) (yField op))
  | 0x6 => .ok (.shr (xField op) (yField op))
  | 0x7 => .ok (.subnReg (xField op) (yField op))
  | 0xE => .ok (.shl (xField op) (yField op))
  | _ => .error (.unimplemented op)

/-- Group 0xE: selected by `NN` (R85). -/
def decodeGroupE (op : Word) : Except Reject Instr :=
  match (nnField op).toNat with
  | 0x9E => .ok (.skp (xField op))
  | 0xA1 => .ok (.sknp (xField op))
  | _ => .error (.unimplemented op)

/-- Group 0xF: selected by `NN` (R85). -/
def decodeGroupF (op : Word) : Except Reject Instr :=
  match (nnField op).toNat with
  | 0x07 => .ok (.ldVxDt (xField op))
  | 0x0A => .ok (.ldVxK (xField op))
  | 0x15 => .ok (.ldDtVx (xField op))
  | 0x18 => .ok (.ldStVx (xField op))
  | 0x1E => .ok (.addI (xField op))
  | 0x29 => .ok (.ldF (xField op))
  | 0x33 => .ok (.ldB (xField op))
  | 0x55 => .ok (.storeRegs (xField op))
  | 0x65 => .ok (.loadRegs (xField op))
  | _ => .error (.unimplemented op)

/-- The instruction an opcode stands for: primary dispatch on the top digit, then the fixed digits of the form
(R84, R85, R86). Total: an opcode that matches no form is rejected by name (R79). -/
def decodeOp (op : Word) : Except Reject Instr :=
  match (opField op).toNat with
  | 0x0 => decodeGroup0 op
  | 0x1 => .ok (.jp (nnnField op))
  | 0x2 => .ok (.call (nnnField op))
  | 0x3 => .ok (.seImm (xField op) (nnField op))
  | 0x4 => .ok (.sneImm (xField op) (nnField op))
  | 0x5 => if nField op = 0 then .ok (.seReg (xField op) (yField op)) else .error (.unimplemented op)
  | 0x6 => .ok (.ldImm (xField op) (nnField op))
  | 0x7 => .ok (.addImm (xField op) (nnField op))
  | 0x8 => decodeGroup8 op
  | 0x9 => if nField op = 0 then .ok (.sneReg (xField op) (yField op)) else .error (.unimplemented op)
  | 0xA => .ok (.ldI (nnnField op))
  | 0xB => .ok (.jpV0 (nnnField op))
  | 0xC => .ok (.rnd (xField op) (nnField op))
  | 0xD => .ok (.drw (xField op) (yField op) (nField op).toNat)
  | 0xE => decodeGroupE op
  | 0xF => decodeGroupF op
  | _ => .error (.unimplemented op)

/-- Two bytes make an opcode, the byte at the lower address in bits 15:8 (R54, R70). -/
def opOfBytes (hi lo : Byte) : Word := hi ++ lo

/-- Decode the first instruction of a sequence of bytes and give the bytes after it; a decoder always consumes two
bytes (R70). Total on any bytes. -/
def decodeBytes : List Byte → Except Reject (Instr × List Byte)
  | hi :: lo :: rest =>
    match decodeOp (opOfBytes hi lo) with
    | .ok i => .ok (i, rest)
    | .error r => .error r
  | _ => .error .truncated

/-- The instruction the decoder reads from a row's word: bit 0 of `w` is the least significant bit of the one 16-bit
word, whose bits above `nbits` are 0; the word is laid out high byte first (R54, R70). -/
def decodeTableWord (nbits w : Nat) : Option Instr :=
  let op : Word := BitVec.ofNat 16 (w % 2 ^ nbits)
  match decodeBytes [op.extractLsb' 8 8, op.extractLsb' 0 8] with
  | .ok (i, _) => some i
  | .error _ => none

/-- A register number as its 4-bit field (R72). -/
def regDigit (r : Reg) : Digit := BitVec.ofFin r

/-- The layout `pNNN` (R72). -/
def layoutNnn (p : Digit) (nnn : Addr12) : Word := p ++ nnn

/-- The layout `pXNN` (R72); also `EXnn` and `FXnn` with the last two digits fixed. -/
def layoutXnn (p : Digit) (x : Reg) (nn : Byte) : Word := (p ++ regDigit x) ++ nn

/-- The layout `pXYN` (R72). -/
def layoutXyn (p : Digit) (x y : Reg) (n : Digit) : Word := ((p ++ regDigit x) ++ regDigit y) ++ n

/-- The opcode of a well-formed instruction, from the table of R89. -/
def encode : Instr → Word
  | .cls => 0x00E0
  | .ret => 0x00EE
  | .jp nnn => layoutNnn 0x1 nnn
  | .call nnn => layoutNnn 0x2 nnn
  | .seImm x nn => layoutXnn 0x3 x nn
  | .sneImm x nn => layoutXnn 0x4 x nn
  | .seReg x y => layoutXyn 0x5 x y 0x0
  | .ldImm x nn => layoutXnn 0x6 x nn
  | .addImm x nn => layoutXnn 0x7 x nn
  | .ldReg x y => layoutXyn 0x8 x y 0x0
  | .orReg x y => layoutXyn 0x8 x y 0x1
  | .andReg x y => layoutXyn 0x8 x y 0x2
  | .xorReg x y => layoutXyn 0x8 x y 0x3
  | .addReg x y => layoutXyn 0x8 x y 0x4
  | .subReg x y => layoutXyn 0x8 x y 0x5
  | .shr x y => layoutXyn 0x8 x y 0x6
  | .subnReg x y => layoutXyn 0x8 x y 0x7
  | .shl x y => layoutXyn 0x8 x y 0xE
  | .sneReg x y => layoutXyn 0x9 x y 0x0
  | .ldI nnn => layoutNnn 0xA nnn
  | .jpV0 nnn => layoutNnn 0xB nnn
  | .rnd x nn => layoutXnn 0xC x nn
  | .drw x y n => layoutXyn 0xD x y (BitVec.ofNat 4 n)
  | .skp x => layoutXnn 0xE x 0x9E
  | .sknp x => layoutXnn 0xE x 0xA1
  | .ldVxDt x => layoutXnn 0xF x 0x07
  | .ldVxK x => layoutXnn 0xF x 0x0A
  | .ldDtVx x => layoutXnn 0xF x 0x15
  | .ldStVx x => layoutXnn 0xF x 0x18
  | .addI x => layoutXnn 0xF x 0x1E
  | .ldF x => layoutXnn 0xF x 0x29
  | .ldB x => layoutXnn 0xF x 0x33
  | .storeRegs x => layoutXnn 0xF x 0x55
  | .loadRegs x => layoutXnn 0xF x 0x65

/-- A row of the opcode table: an opcode belongs to it when `op AND mask = bits` (R80, R89). -/
structure TableRow where
  bits : Word
  mask : Word
deriving DecidableEq, Repr

/-- The opcode matches the row (R80). -/
def TableRow.holds (r : TableRow) (op : Word) : Bool := op &&& r.mask == r.bits

/-- The row of R89 that an instruction is an instance of. -/
def tableRow : Instr → TableRow
  | .cls => ⟨0x00E0, 0xFFFF⟩
  | .ret => ⟨0x00EE, 0xFFFF⟩
  | .jp _ => ⟨0x1000, 0xF000⟩
  | .call _ => ⟨0x2000, 0xF000⟩
  | .seImm _ _ => ⟨0x3000, 0xF000⟩
  | .sneImm _ _ => ⟨0x4000, 0xF000⟩
  | .seReg _ _ => ⟨0x5000, 0xF00F⟩
  | .ldImm _ _ => ⟨0x6000, 0xF000⟩
  | .addImm _ _ => ⟨0x7000, 0xF000⟩
  | .ldReg _ _ => ⟨0x8000, 0xF00F⟩
  | .orReg _ _ => ⟨0x8001, 0xF00F⟩
  | .andReg _ _ => ⟨0x8002, 0xF00F⟩
  | .xorReg _ _ => ⟨0x8003, 0xF00F⟩
  | .addReg _ _ => ⟨0x8004, 0xF00F⟩
  | .subReg _ _ => ⟨0x8005, 0xF00F⟩
  | .shr _ _ => ⟨0x8006, 0xF00F⟩
  | .subnReg _ _ => ⟨0x8007, 0xF00F⟩
  | .shl _ _ => ⟨0x800E, 0xF00F⟩
  | .sneReg _ _ => ⟨0x9000, 0xF00F⟩
  | .ldI _ => ⟨0xA000, 0xF000⟩
  | .jpV0 _ => ⟨0xB000, 0xF000⟩
  | .rnd _ _ => ⟨0xC000, 0xF000⟩
  | .drw _ _ _ => ⟨0xD000, 0xF000⟩
  | .skp _ => ⟨0xE09E, 0xF0FF⟩
  | .sknp _ => ⟨0xE0A1, 0xF0FF⟩
  | .ldVxDt _ => ⟨0xF007, 0xF0FF⟩
  | .ldVxK _ => ⟨0xF00A, 0xF0FF⟩
  | .ldDtVx _ => ⟨0xF015, 0xF0FF⟩
  | .ldStVx _ => ⟨0xF018, 0xF0FF⟩
  | .addI _ => ⟨0xF01E, 0xF0FF⟩
  | .ldF _ => ⟨0xF029, 0xF0FF⟩
  | .ldB _ => ⟨0xF033, 0xF0FF⟩
  | .storeRegs _ => ⟨0xF055, 0xF0FF⟩
  | .loadRegs _ => ⟨0xF065, 0xF0FF⟩

/-- The 34 rows of R89, in the table's order. -/
def opcodeTable : List TableRow := [
  ⟨0x00E0, 0xFFFF⟩, ⟨0x00EE, 0xFFFF⟩, ⟨0x1000, 0xF000⟩, ⟨0x2000, 0xF000⟩, ⟨0x3000, 0xF000⟩, ⟨0x4000, 0xF000⟩,
  ⟨0x5000, 0xF00F⟩, ⟨0x6000, 0xF000⟩, ⟨0x7000, 0xF000⟩, ⟨0x8000, 0xF00F⟩, ⟨0x8001, 0xF00F⟩, ⟨0x8002, 0xF00F⟩,
  ⟨0x8003, 0xF00F⟩, ⟨0x8004, 0xF00F⟩, ⟨0x8005, 0xF00F⟩, ⟨0x8006, 0xF00F⟩, ⟨0x8007, 0xF00F⟩, ⟨0x800E, 0xF00F⟩,
  ⟨0x9000, 0xF00F⟩, ⟨0xA000, 0xF000⟩, ⟨0xB000, 0xF000⟩, ⟨0xC000, 0xF000⟩, ⟨0xD000, 0xF000⟩, ⟨0xE09E, 0xF0FF⟩,
  ⟨0xE0A1, 0xF0FF⟩, ⟨0xF007, 0xF0FF⟩, ⟨0xF00A, 0xF0FF⟩, ⟨0xF015, 0xF0FF⟩, ⟨0xF018, 0xF0FF⟩, ⟨0xF01E, 0xF0FF⟩,
  ⟨0xF029, 0xF0FF⟩, ⟨0xF033, 0xF0FF⟩, ⟨0xF055, 0xF0FF⟩, ⟨0xF065, 0xF0FF⟩]

end Sys2Proof
end

