-- ==== Sys2Proof/Machine/State.lean ====
section
/-! DEFINITION. The state of the core (spec 10_state.md R20 to R40), as plain data, and the state after reset
(70_reset_and_hazards.md R300, R301). Beside the core's own fields it holds the model's places for the ports of R280:
the inputs (KEYS, the random draws taken, the host operations to come), the outputs of the last operation, and the
parameters of R38, which nothing writes. -/

namespace Sys2Proof.Machine

open Sys2Proof

/-- Why a step would stop with a fault: NEVER. "No instruction ever aborts the run" (R260): every error of this core is
recorded in the `fault` register and the instruction goes on (R18, R262, R263), so this closed inductive has no
constructor and no one raises it. Safe: nothing is stopped that the spec lets run, and nothing runs past a stop. -/
inductive Fault
deriving DecidableEq, Repr

/-- Why a step is refused. -/
inductive Refusal
  /-- An instruction whose meaning the model does not hold: raised by an arm of `exec` only. No arm raises it: all 34
  instructions have their meaning. Safe. -/
  | notModelled (mnemonic : String)
  /-- STEP or TICK after a LOAD that answered ROM_TOO_LARGE: raised by `opStep` and `opTick`. Such a run is outside the
  spec (R303, R305), which asks a model to refuse it (93_implementation_defined.md U14). Safe (log 9). -/
  | afterRejectedLoad
deriving DecidableEq, Repr

/-- `fault.code` (R33, R261). -/
inductive FaultCode
  /-- 0, `NONE`: no fault recorded. -/
  | none
  /-- 1, `STACK_OVERFLOW`: a call found the stack full. -/
  | stackOverflow
  /-- 2, `STACK_UNDERFLOW`: a return found the stack empty. -/
  | stackUnderflow
  /-- 3, `ADDR_RANGE`: a byte access above 0xFFF. -/
  | addrRange
  /-- 4, `KEY_RANGE`: a key lookup above 0x0F. -/
  | keyRange
deriving DecidableEq, Repr

/-- The 3-bit code the host reads (R33, R287); codes 5 to 7 are never written. -/
def FaultCode.bits : FaultCode → BitVec 3
  | .none => 0
  | .stackOverflow => 1
  | .stackUnderflow => 2
  | .addrRange => 3
  | .keyRange => 4

/-- The fault register (R33). -/
structure FaultRecord where
  /-- Which cause, or `NONE`. -/
  code : FaultCode
  /-- Address of the instruction that raised it. -/
  pc : Word
  /-- That instruction's opcode. -/
  op : Word
  /-- The value R261 names for the cause. -/
  info : Word
deriving DecidableEq, Repr

/-- The fault register with nothing recorded (R33, R300). -/
def FaultRecord.clear : FaultRecord := { code := .none, pc := 0, op := 0, info := 0 }

/-- A key number, 0x0 to 0xF (R8, R282). -/
abbrev Key := Fin 16

/-- The key-wait latch of `FX0A` (R31). -/
inductive KeyWait
  /-- No key latched. -/
  | idle
  /-- Key `k` was pressed and its release is awaited. -/
  | latched (k : Key)
deriving DecidableEq, Repr

/-- One row of the display: pixel x is bit x. -/
abbrev Line := BitVec 64

/-- The display bitmap, row-major: 32 rows of 64 pixels (R35). -/
abbrev Screen := Vector Line 32

/-- The 4096-byte memory, as the cells that differ from what a LOAD of no bytes leaves (R34, R58): addresses strictly
rising, no entry equal to its reset byte. -/
abbrev Memory := List Host.Cell

/-- Result of the last LOAD (R280, R303). -/
inductive LoadStatus
  | ok
  | romTooLarge
deriving DecidableEq, Repr

/-- The output ports, as the last operation left them (R280, R284). -/
structure Outputs where
  /-- `DIRTY` of the last step (R105). -/
  dirty : Bool
  /-- `UNIMP` of the last step (R79). -/
  unimp : Bool
  /-- `DIRTY` of the last tick (R273). -/
  tickDirty : Bool
  /-- `SOUND_ACTIVE` of the last tick (R272, R286). -/
  soundActive : Bool
  /-- `LOAD_STATUS` of the last LOAD (R303). -/
  loadStatus : LoadStatus
deriving DecidableEq, Repr

/-- What the host does between two steps of the model (R280, R281, R288). -/
inductive HostOp
  /-- `LOAD(rom)`. -/
  | load (rom : List Byte)
  /-- `RELOAD`. -/
  | reload
  /-- `TICK`. -/
  | tick
  /-- `STEP`. -/
  | step
  /-- Drive the `KEYS` port: key `k` pressed when bit `k` is 1. -/
  | setKeys (keys : BitVec 16)
deriving DecidableEq, Repr

/-- The state of the machine. -/
structure State where
  /-- V0 to VF (R21). -/
  v : Vector Byte 16
  /-- The index register I (R24). -/
  i : Word
  /-- The program counter (R25, R26). -/
  pc : Word
  /-- The stack pointer, 0 to 16: entries in use (R27). -/
  sp : Fin 17
  /-- The return stack (R28). -/
  stack : Vector Word 16
  /-- The delay timer (R29). -/
  dt : Byte
  /-- The sound timer (R30). -/
  st : Byte
  /-- The memory (R34). -/
  mem : Memory
  /-- The display (R35). -/
  fb : Screen
  /-- The key-wait latch (R31). -/
  kw : KeyWait
  /-- The fault register (R33). -/
  fault : FaultRecord
  /-- The bytes of the last LOAD, kept for RELOAD (R300, R304). -/
  lastRom : List Byte
  /-- Address of the instruction being executed; a step's own latch (R39, R80). -/
  pc0 : Word
  /-- Opcode being executed, a step's own latch and the port `OP` (R39, R80, R284). -/
  op : Word
  /-- The other output ports (R280). -/
  out : Outputs
  /-- INPUT: the `KEYS` port (R282). -/
  keys : BitVec 16
  /-- MODEL'S OWN: how many random draws have been taken; the next is `Config.randomByte draws` (R12). -/
  draws : Nat
  /-- MODEL'S OWN: the host operations still to come; none means STEP (R280, log 1). -/
  pending : List HostOp
  /-- The parameters of the run; nothing writes them (R38). -/
  cfg : Config
deriving DecidableEq, Repr

/-- The state right after a LOAD of no bytes that returned OK (R300, R301, R303): every field of the core at the value
R301 gives. DESIGN CHOICE for the model's own fields: no operation pending, no key pressed, no draw taken, outputs low
(logs 1 to 6, 17). -/
def State.reset : State where
  v := Vector.replicate 16 0
  i := 0
  pc := 0x200
  sp := 0
  stack := Vector.replicate 16 0
  dt := 0
  st := 0
  mem := []
  fb := Vector.replicate 32 0
  kw := .idle
  fault := .clear
  lastRom := []
  pc0 := 0
  op := 0
  out := { dirty := false, unimp := false, tickDirty := false, soundActive := false, loadStatus := .ok }
  keys := 0
  draws := 0
  pending := []
  cfg := Config.thisHardware

end Sys2Proof.Machine
end

