-- ==== Sys2Proof/Machine/Flags.lean ====
section
/-! DEFINITION. The values the flag-writing ALU instructions put in VF, each computed from the exact unsigned operands
(spec 43_alu.md R160, R164), and the 8-bit results that wrap (R160). The collision flag of `DXYN` is in Display. -/

namespace Sys2Proof.Machine

open Sys2Proof

/-- A condition as a flag value, 1 or 0. -/
def flagOf (cond : Bool) : Byte := if cond then 1 else 0

/-- Carry out of an addition: the exact sum exceeds 255 (R170). -/
def carryFlag (a b : Byte) : Byte := flagOf (decide (a.toNat + b.toNat > 255))

/-- Strictly greater, the flag of `8XY5` and, with the operands swapped, of `8XY7` (R171, R172). -/
def greaterFlag (a b : Byte) : Byte := flagOf (decide (a.toNat > b.toNat))

/-- `V[X] AND SHR_FLAG_MASK` (R173). -/
def shrFlag (mask : ShrFlagMask) (a : Byte) : Byte := a &&& mask.byte

/-- Bit 7 (R175). -/
def shlFlag (a : Byte) : Byte := a >>> 7

end Sys2Proof.Machine
end

