-- ==== Sys2Proof/Machine/Ops.lean ====
section
/-! DEFINITION. The named operations every meaning is written over: memory and its primitives (spec 20_memory.md R52,
R53), registers (R21), recording a fault (60_exceptions.md R262), the fetch (30_encoding.md R80 to R82), skips (R144)
and the return stack (R120, R122). Taking an exception: the core has none (R267, R268); an error is recorded by
`State.raise` and the instruction goes on (R18, R263). -/

namespace Sys2Proof.Machine

open Sys2Proof

/-! ### Memory as data -/

/-- The byte a memory lists at an address, if it lists one. -/
def Memory.find : Memory → Nat → Option Byte
  | [], _ => none
  | (k, b) :: m, a => if k = a then some b else Memory.find m a

/-- The byte at address `a`: the listed byte, or the reset byte (R34, R61). -/
def Memory.read (c : Config) (m : Memory) (a : Nat) : Byte :=
  (Memory.find m a).getD (c.resetByte a)

/-- List byte `b` at address `a`, keeping the addresses rising. -/
def Memory.put : Memory → Nat → Byte → Memory
  | [], a, b => [(a, b)]
  | (k, d) :: m, a, b =>
    if a < k then (a, b) :: (k, d) :: m
    else if a = k then (a, b) :: m
    else (k, d) :: Memory.put m a b

/-- List nothing at address `a`. -/
def Memory.drop : Memory → Nat → Memory
  | [], _ => []
  | (k, d) :: m, a => if k = a then m else (k, d) :: Memory.drop m a

/-- Write byte `b` at address `a`, keeping the canonical form: a byte equal to the reset byte is not listed. -/
def Memory.write (c : Config) (m : Memory) (a : Nat) (b : Byte) : Memory :=
  if b = c.resetByte a then Memory.drop m a else Memory.put m a b

/-- The canonical form: addresses strictly rising, all inside the 4096 bytes, no entry equal to its reset byte. -/
abbrev Memory.wf (c : Config) (m : Memory) : Prop :=
  m.Pairwise (fun p q => p.1 < q.1) ∧ ∀ e ∈ m, e.1 < memSize ∧ e.2 ≠ c.resetByte e.1

/-- Copy bytes into memory from address `a` up (the loader's copy, R300). -/
def Memory.writeAll (c : Config) : Memory → Nat → List Byte → Memory
  | m, _, [] => m
  | m, a, b :: bs => Memory.writeAll c (Memory.write c m a b) (a + 1) bs

/-! ### Registers and outputs -/

/-- `x[r]` (R15). -/
def State.getV (s : State) (r : Reg) : Byte := s.v[r.val]

/-- `x[r] <- b` (R15). -/
def State.setV (s : State) (r : Reg) (b : Byte) : State := { s with v := s.v.set r.val b }

/-- `dirty <- true` (R105). -/
def State.markDirty (s : State) : State := { s with out := { s.out with dirty := true } }

/-- `unimp <- true`, the only effect of an unimplemented opcode (R79). -/
def State.markUnimp (s : State) : State := { s with out := { s.out with unimp := true } }

/-! ### Recording a fault -/

/-- `raise c(info)`: record the fault with this step's address and opcode if none is recorded; the first fault since
LOAD is kept (R262). The statement after a raise runs (R18, R263). -/
def State.raise (s : State) (c : FaultCode) (info : Word) : State :=
  if s.fault.code = .none then { s with fault := { code := c, pc := s.pc0, op := s.op, info := info } } else s

/-! ### Memory access -/

/-- The address is one of 0x000 to 0xFFF (R51). -/
abbrev InRange (a : Word) : Prop := a.toNat < memSize

/-- The value of `MemRead(a, 1)`: the byte, or 0x00 above 0xFFF (R52). -/
def State.peek (s : State) (a : Word) : Byte :=
  if InRange a then Memory.read s.cfg s.mem a.toNat else 0

/-- The effect of `MemRead(a, 1)` on the state: `AddrRange(a)` above 0xFFF, otherwise none (R52). -/
def State.checkAddr (s : State) (a : Word) : State :=
  if InRange a then s else s.raise .addrRange a

/-- `MemWrite(a, 1, b)`: above 0xFFF the write is dropped and `AddrRange(a)` raised (R53). -/
def State.memWrite (s : State) (a : Word) (b : Byte) : State :=
  if InRange a then { s with mem := Memory.write s.cfg s.mem a.toNat b } else s.raise .addrRange a

/-! ### The step's fetch -/

/-- The opcode at pc, big-endian, each out-of-range byte as 0x00 (R54, R82). -/
def State.opcodeAt (s : State) : Word := opOfBytes (s.peek s.pc) (s.peek (s.pc + 1))

/-- Fetch and advance (R80, R81): latch the address and the big-endian opcode, clear the step's outputs, move pc past
the instruction, and raise `AddrRange` for the high then the low byte where they are out of range (R82, R264). -/
def State.fetch (s : State) : State :=
  let t := { s with
    pc0 := s.pc
    op := s.opcodeAt
    pc := s.pc + 2
    out := { s.out with dirty := false, unimp := false } }
  (t.checkAddr s.pc).checkAddr (s.pc + 1)

/-! ### Control -/

/-- `pc <- target` (R15). -/
def State.jump (s : State) (target : Word) : State := { s with pc := target }

/-- A skip: two more bytes when the condition holds (R144). -/
def State.skipIf (s : State) (cond : Bool) : State := if cond then { s with pc := s.pc + 2 } else s

/-- Push pc and jump; with 16 entries in use, `StackOverflow(16)` and nothing else (R122). -/
def State.callTo (s : State) (target : Word) : State :=
  if h : s.sp.val < 16 then
    { s with stack := s.stack.set s.sp.val s.pc, sp := ⟨s.sp.val + 1, by omega⟩, pc := target }
  else s.raise .stackOverflow 16

/-- Pop pc; with no entry in use, `StackUnderflow(0)` and nothing else (R120). -/
def State.returnFromCall (s : State) : State :=
  if h : 0 < s.sp.val then
    { s with sp := ⟨s.sp.val - 1, by omega⟩, pc := s.stack[s.sp.val - 1] }
  else s.raise .stackUnderflow 0

/-! ### Placing an instruction -/

/-- Place a byte at an address of memory; an address above 0xFFF has no place (R58). -/
def State.placeByte (s : State) (a : Word) (b : Byte) : State :=
  if InRange a then { s with mem := Memory.write s.cfg s.mem a.toNat b } else s

/-- Put a 16-bit word where the next fetch reads it, high byte first (R54), and make the next operation a STEP on a
loaded program (log 21). -/
def State.placeWord (s : State) (op : Word) : State :=
  let t := (s.placeByte s.pc (op.extractLsb' 8 8)).placeByte (s.pc + 1) (op.extractLsb' 0 8)
  { t with out := { t.out with loadStatus := .ok }, pending := .step :: t.pending }

end Sys2Proof.Machine
end

