-- ==== Sys2Proof/Machine/Operands.lean ====
section
/-! DEFINITION. The operand forms: the indexed addresses of the memory instructions (spec 44_index_memory.md R204,
20_memory.md R57), the register ranges of `FX55` and `FX65`, the decimal digits of `FX33`, the sprite rows of `DXYN`
(40_display.md R101) and the key lookup (45_keys.md R230). -/

namespace Sys2Proof.Machine

open Sys2Proof

/-- The address at offset `k` from I, modulo 65536 (R51, R57, R204). -/
def State.indexed (s : State) (k : Nat) : Word := s.i + BitVec.ofNat 16 k

/-- Store V0, V1, … to memory at I, the first `count` registers in ascending order (R205). -/
def State.storeUpTo (s : State) : Nat → State
  | 0 => s
  | k + 1 => (s.storeUpTo k).memWrite (s.indexed k) (s.getV (Fin.ofNat 16 k))

/-- Load V0, V1, … from memory at I, the first `count` registers in ascending order; a byte above 0xFFF reads as 0x00
and raises `AddrRange` (R206). -/
def State.loadUpTo (s : State) : Nat → State
  | 0 => s
  | k + 1 =>
    let t := s.loadUpTo k
    (t.checkAddr (s.indexed k)).setV (Fin.ofNat 16 k) (t.peek (s.indexed k))

/-- The hundreds digit (R203). -/
def hundreds (v : Byte) : Byte := BitVec.ofNat 8 (v.toNat / 100)

/-- The tens digit (R203). -/
def tens (v : Byte) : Byte := BitVec.ofNat 8 (v.toNat / 10 % 10)

/-- The units digit (R203). -/
def units (v : Byte) : Byte := BitVec.ofNat 8 (v.toNat % 10)

/-- The bytes of the first `count` sprite rows, in ascending order (R101, R102). -/
def State.spriteRows (s : State) : Nat → List Byte
  | 0 => []
  | k + 1 => s.spriteRows k ++ [s.peek (s.indexed k)]

/-- The faults of reading the first `count` sprite rows, in ascending order: every row is read, clipped or not (R102,
D17). -/
def State.checkRows (s : State) : Nat → State
  | 0 => s
  | k + 1 => (s.checkRows k).checkAddr (s.indexed k)

/-- The value of `KeyPressed(v)`: the key's level, false above 0x0F (R230). -/
def State.keyPressed (s : State) (v : Byte) : Bool :=
  if v.toNat ≤ 0x0F then s.keys.getLsbD v.toNat else false

/-- The effect of `KeyPressed(v)` on the state: `KeyRange(v)` above 0x0F, otherwise none (R230). -/
def State.checkKey (s : State) (v : Byte) : State :=
  if v.toNat ≤ 0x0F then s else s.raise .keyRange (v.setWidth 16)

/-- Key `k` is pressed (R15, R282). -/
def State.keyDown (s : State) (k : Key) : Bool := s.keys.getLsbD k.val

/-- The keys 0 to 15 in ascending order. -/
def allKeys : List Key := [0, 1, 2, 3, 4, 5, 6, 7, 8, 9, 10, 11, 12, 13, 14, 15]

/-- The lowest pressed key, by an ascending scan (R234). -/
def State.lowestKey (s : State) : Option Key := allKeys.find? s.keyDown

end Sys2Proof.Machine
end

