-- ==== Sys2Proof/Machine/Alu.lean ====
section
/-! DEFINITION. The register and ALU instructions `6XNN`, `7XNN`, `8XY0` to `8XY7`, `8XYE` and `CXNN` (spec 43_alu.md
R160 to R178). The flag-writing forms run two statements in the written order, so the second reads VF as the first
left it when X or Y is F (R16, R164, R176). -/

namespace Sys2Proof.Machine

open Sys2Proof

/-- `6XNN` (R161). -/
def execLdImm (x : Reg) (nn : Byte) (s : State) : Host.Outcome State Fault Refusal := .next (s.setV x nn)

/-- `7XNN` (R162): no flag. -/
def execAddImm (x : Reg) (nn : Byte) (s : State) : Host.Outcome State Fault Refusal :=
  .next (s.setV x (s.getV x + nn))

/-- `8XY0` (R165). -/
def execLdReg (x y : Reg) (s : State) : Host.Outcome State Fault Refusal := .next (s.setV x (s.getV y))

/-- `8XY1` (R166): VF is not cleared. -/
def execOrReg (x y : Reg) (s : State) : Host.Outcome State Fault Refusal :=
  .next (s.setV x (s.getV x ||| s.getV y))

/-- `8XY2` (R167): VF is not cleared. -/
def execAndReg (x y : Reg) (s : State) : Host.Outcome State Fault Refusal :=
  .next (s.setV x (s.getV x &&& s.getV y))

/-- `8XY3` (R168): VF is not cleared. -/
def execXorReg (x y : Reg) (s : State) : Host.Outcome State Fault Refusal :=
  .next (s.setV x (s.getV x ^^^ s.getV y))

/-- `8XY4` (R170). -/
def execAddReg (x y : Reg) (s : State) : Host.Outcome State Fault Refusal :=
  let t := s.setV Reg.vf (carryFlag (s.getV x) (s.getV y))
  .next (t.setV x (t.getV x + t.getV y))

/-- `8XY5` (R171). -/
def execSubReg (x y : Reg) (s : State) : Host.Outcome State Fault Refusal :=
  let t := s.setV Reg.vf (greaterFlag (s.getV x) (s.getV y))
  .next (t.setV x (t.getV x - t.getV y))

/-- `8XY7` (R172). -/
def execSubnReg (x y : Reg) (s : State) : Host.Outcome State Fault Refusal :=
  let t := s.setV Reg.vf (greaterFlag (s.getV y) (s.getV x))
  .next (t.setV x (t.getV y - t.getV x))

/-- `8XY6` (R173): V[Y] is never read (R87). -/
def execShr (x _y : Reg) (s : State) : Host.Outcome State Fault Refusal :=
  let t := s.setV Reg.vf (shrFlag s.cfg.shrFlagMask (s.getV x))
  .next (t.setV x (t.getV x >>> 1))

/-- `8XYE` (R175): V[Y] is never read (R87). -/
def execShl (x _y : Reg) (s : State) : Host.Outcome State Fault Refusal :=
  let t := s.setV Reg.vf (shlFlag (s.getV x))
  .next (t.setV x (t.getV x <<< 1))

/-- `CXNN` (R178): one fresh draw, a free value (log 4), masked by NN; the draw is then used up. -/
def execRnd (x : Reg) (nn : Byte) (s : State) : Host.Outcome State Fault Refusal :=
  .next ({ s with draws := s.draws + 1 }.setV x (Config.randomByte s.draws &&& nn))

end Sys2Proof.Machine
end

