-- ==== Sys2Proof/Machine/Control.lean ====
section
/-! DEFINITION. The control transfers `00EE`, `1NNN`, `2NNN` and `BNNN` (spec 41_control_flow.md R120 to R125). -/

namespace Sys2Proof.Machine

open Sys2Proof

/-- `00EE` (R120). -/
def execRet (s : State) : Host.Outcome State Fault Refusal := .next s.returnFromCall

/-- `1NNN` (R121). -/
def execJp (nnn : Addr12) (s : State) : Host.Outcome State Fault Refusal := .next (s.jump (nnn.setWidth 16))

/-- `2NNN` (R122). -/
def execCall (nnn : Addr12) (s : State) : Host.Outcome State Fault Refusal := .next (s.callTo (nnn.setWidth 16))

/-- `BNNN` (R123): V0, never V[X]. -/
def execJpV0 (nnn : Addr12) (s : State) : Host.Outcome State Fault Refusal :=
  .next (s.jump (nnn.setWidth 16 + (s.getV 0).setWidth 16))

end Sys2Proof.Machine
end

