-- ==== Sys2Proof/Machine/Display.lean ====
section
/-! DEFINITION. The display instructions `00E0` and `DXYN` (spec 40_display.md R100 to R105). Every meaning starts
after the step's pc advance, with pc = pc0 + 2. -/

namespace Sys2Proof.Machine

open Sys2Proof

/-- The pixel at (x, y); outside the display there is none (R35). -/
def Screen.pixel (fb : Screen) (x y : Nat) : Bool := if h : y < 32 then fb[y].getLsbD x else false

/-- `fb[k]`, the pixel at row-major index k = y·64 + x, as the port `FB` presents it (R35, R285). -/
def Screen.bit (fb : Screen) (k : Nat) : Bool := fb.pixel (k % displayW) (k / displayW)

/-- `fb[y*64 + x] <- p XOR b` on the row that holds the pixel (R102). -/
def Line.xorPixel (line : Line) (x : Nat) (b : Bool) : Line := if b then line ^^^ (1#64 <<< x) else line

/-- One bit of a sprite at column x: XOR it into the pixel; the collision becomes true when both were 1 (R102). -/
def plot (x : Nat) (b : Bool) (acc : Line × Bool) : Line × Bool :=
  (Line.xorPixel acc.1 x b, acc.2 || (b && acc.1.getLsbD x))

/-- The bits of a row at the column offsets given, bit 7 − j at offset j; no horizontal wrap: the first offset past
column 63 stops the row (R101, R102). -/
def drawBits (row : Byte) (x0 : Nat) : List Nat → Line × Bool → Line × Bool
  | [], acc => acc
  | j :: js, acc =>
    if x0 + j > 63 then acc else drawBits row x0 js (plot (x0 + j) (row.getLsbD (7 - j)) acc)

/-- The column offsets of a row (R102). -/
def columns : List Nat := [0, 1, 2, 3, 4, 5, 6, 7]

/-- The rows of a sprite from row `y` down; no vertical wrap: the first row past row 31 stops the sprite (R102). -/
def drawRows (x0 : Nat) : Nat → List Byte → Screen × Bool → Screen × Bool
  | _, [], acc => acc
  | y, row :: rows, acc =>
    if h : y > 31 then acc
    else
      let drawn := drawBits row x0 columns (acc.1[y], acc.2)
      drawRows x0 (y + 1) rows (acc.1.set y drawn.1, drawn.2)

/-- `00E0` (R100): every pixel 0, dirty. -/
def execCls (s : State) : Host.Outcome State Fault Refusal :=
  .next { s with fb := Vector.replicate 32 0 }.markDirty

/-- `DXYN` (R102): the origin is read before VF is cleared, all rows are read before any is drawn, VF ends as the
collision flag, dirty in every execution. -/
def execDrw (x y : Reg) (n : Nat) (s : State) : Host.Outcome State Fault Refusal :=
  let x0 := (s.getV x).toNat % displayW
  let y0 := (s.getV y).toNat % displayH
  let s1 := s.setV Reg.vf 0
  let s2 := s1.checkRows n
  let drawn := drawRows x0 y0 (s1.spriteRows n) (s2.fb, false)
  .next (({ s2 with fb := drawn.1 }.setV Reg.vf (flagOf drawn.2)).markDirty)

end Sys2Proof.Machine
end

