-- ==== Sys2Proof/Machine/IndexMemory.lean ====
section
/-! DEFINITION. The index-register and memory instructions `ANNN`, `FX1E`, `FX29`, `FX33`, `FX55` and `FX65` (spec
44_index_memory.md R200 to R206). No access changes I (R204). -/

namespace Sys2Proof.Machine

open Sys2Proof

/-- `ANNN` (R200). -/
def execLdI (nnn : Addr12) (s : State) : Host.Outcome State Fault Refusal :=
  .next { s with i := nnn.setWidth 16 }

/-- `FX1E` (R201): VF is not written. -/
def execAddI (x : Reg) (s : State) : Host.Outcome State Fault Refusal :=
  .next { s with i := s.i + (s.getV x).setWidth 16 }

/-- `FX29` (R202): V[X] · 5, not reduced to a nibble. -/
def execLdF (x : Reg) (s : State) : Host.Outcome State Fault Refusal :=
  .next { s with i := BitVec.ofNat 16 ((s.getV x).toNat * 5) }

/-- `FX33` (R203): hundreds, tens and units at I, I+1 and I+2. -/
def execLdB (x : Reg) (s : State) : Host.Outcome State Fault Refusal :=
  let v := s.getV x
  .next (((s.memWrite s.i (hundreds v)).memWrite (s.indexed 1) (tens v)).memWrite (s.indexed 2) (units v))

/-- `FX55` (R205): V0 to V[X], ascending. -/
def execStoreRegs (x : Reg) (s : State) : Host.Outcome State Fault Refusal := .next (s.storeUpTo (x.val + 1))

/-- `FX65` (R206): V0 to V[X], ascending. -/
def execLoadRegs (x : Reg) (s : State) : Host.Outcome State Fault Refusal := .next (s.loadUpTo (x.val + 1))

end Sys2Proof.Machine
end

