-- ==== Sys2Proof/Machine/Keys.lean ====
section
/-! DEFINITION. The key instructions `EX9E`, `EXA1` and `FX0A` (spec 45_keys.md R230 to R237). The core never writes
the key vector (R237). -/

namespace Sys2Proof.Machine

open Sys2Proof

/-- `EX9E` (R231): above 0x0F, `KeyRange` and no skip. -/
def execSkp (x : Reg) (s : State) : Host.Outcome State Fault Refusal :=
  .next ((s.checkKey (s.getV x)).skipIf (s.keyPressed (s.getV x)))

/-- `EXA1` (R232): above 0x0F, `KeyRange` and the skip is taken. -/
def execSknp (x : Reg) (s : State) : Host.Outcome State Fault Refusal :=
  .next ((s.checkKey (s.getV x)).skipIf (!s.keyPressed (s.getV x)))

/-- `pc <- (pc - 2) mod 65536`: the instruction re-executes (R234). -/
def State.rollBack (s : State) : State := { s with pc := s.pc - 2 }

/-- Latch the lowest pressed key, if one is pressed (R234, from `Idle`). -/
def State.latchKey (s : State) : State :=
  match s.lowestKey with
  | some k => { s with kw := .latched k }
  | none => s

/-- One execution of `FX0A`: latch and wait, keep waiting while the latched key is held, or commit on its release
(R233, R234). -/
def State.waitKey (s : State) (x : Reg) : State :=
  match s.kw with
  | .idle => s.latchKey.rollBack
  | .latched k =>
    if s.keyDown k then s.rollBack
    else { s.setV x (BitVec.ofNat 8 k.val) with kw := .idle }

/-- `FX0A` (R234). -/
def execLdVxK (x : Reg) (s : State) : Host.Outcome State Fault Refusal := .next (s.waitKey x)

end Sys2Proof.Machine
end

