-- ==== Sys2Proof/Machine/Timers.lean ====
section
/-! DEFINITION. The timer instructions `FX07`, `FX15` and `FX18` (spec 46_timers.md R250 to R252). The countdown is the
tick's, in Sequencer (60_exceptions.md R271, R275). -/

namespace Sys2Proof.Machine

open Sys2Proof

/-- `FX07` (R250). -/
def execLdVxDt (x : Reg) (s : State) : Host.Outcome State Fault Refusal := .next (s.setV x s.dt)

/-- `FX15` (R251). -/
def execLdDtVx (x : Reg) (s : State) : Host.Outcome State Fault Refusal := .next { s with dt := s.getV x }

/-- `FX18` (R252). -/
def execLdStVx (x : Reg) (s : State) : Host.Outcome State Fault Refusal := .next { s with st := s.getV x }

end Sys2Proof.Machine
end

