-- ==== Sys2Proof/Machine/Sequencer.lean ====
section
/-! DEFINITION. The instruction cycle (spec 30_encoding.md R80), the tick sequencer with the countdown timers
(60_exceptions.md R270 to R275), the loader (70_reset_and_hazards.md R300 to R304) and the host's operations performed
one at a time (60_exceptions.md R280, R281). -/

namespace Sys2Proof.Machine

open Sys2Proof

/-- One instruction: fetch, advance, decode, execute; an opcode of no form is a no-op with `unimp` (R79, R80). -/
def cycle (s : State) : Host.Outcome State Fault Refusal :=
  match decodeOp s.fetch.op with
  | .ok i => exec i s.fetch
  | .error _ => .next s.fetch.markUnimp

/-- `dirty_t <- dirty_t OR e.dirty` after a step of a tick (R270, R273). -/
def State.gatherDirty (s : State) : State :=
  { s with out := { s.out with tickDirty := s.out.tickDirty || s.out.dirty } }

/-- The steps of a tick, one after another, gathering their dirty outputs (R270). -/
def batch : Nat → State → Host.Outcome State Fault Refusal
  | 0, s => .next s
  | k + 1, s =>
    match cycle s with
    | .next t => batch k t.gatherDirty
    | .fault r => .fault r
    | .refused r => .refused r

/-- A timer's countdown, floor at 0 (R271). -/
def countDown (t : Byte) : Byte := if t = 0 then 0 else t - 1

/-- The end of a tick: `sound_active` from st before the decrement, then each timer counts down (R270 to R272). -/
def State.endTick (s : State) : State :=
  { s with
    out := { s.out with soundActive := decide (s.st ≠ 0) }
    dt := countDown s.dt
    st := countDown s.st }

/-- `Tick(keys)`: STEPS_PER_TICK steps, all seeing the same keys, then the timer update (R270, R282). -/
def tick (s : State) : Host.Outcome State Fault Refusal :=
  match batch s.cfg.stepsPerTick { s with out := { s.out with tickDirty := false } } with
  | .next t => .next t.endTick
  | .fault r => .fault r
  | .refused r => .refused r

/-- The operation STEP: one instruction, no timer update (R281). After a rejected LOAD it is refused: such a run is
outside the spec (R303, R305, U14). -/
def opStep (s : State) : Host.Outcome State Fault Refusal :=
  match s.out.loadStatus with
  | .ok => cycle s
  | .romTooLarge => .refused .afterRejectedLoad

/-- The operation TICK (R270, R281); refused after a rejected LOAD as STEP is. -/
def opTick (s : State) : Host.Outcome State Fault Refusal :=
  match s.out.loadStatus with
  | .ok => tick s
  | .romTooLarge => .refused .afterRejectedLoad

/-- `LOAD(rom)` (R300): every field of the core at its reset value, the ROM remembered, then copied to 0x200 if it fits
or `ROM_TOO_LARGE` (R303). The inputs and the parameters are the host's and stay. -/
def State.load (s : State) (rom : List Byte) : State :=
  let t := { State.reset with
    lastRom := rom, keys := s.keys, draws := s.draws, pending := s.pending, cfg := s.cfg }
  if romFits rom then { t with mem := Memory.writeAll s.cfg [] romBase rom }
  else { t with out := { t.out with loadStatus := .romTooLarge } }

/-- `RELOAD` (R304): LOAD again with the bytes of the previous LOAD. -/
def State.reload (s : State) : State := s.load s.lastRom

/-- Perform the next operation of the host (R281); where none is pending, STEP (DESIGN CHOICE, log 1). -/
def perform (s : State) : Host.Outcome State Fault Refusal :=
  match s.pending with
  | [] => opStep s
  | .step :: rest => opStep { s with pending := rest }
  | .tick :: rest => opTick { s with pending := rest }
  | .load rom :: rest => .next ({ s with pending := rest }.load rom)
  | .reload :: rest => .next { s with pending := rest }.reload
  | .setKeys keys :: rest => .next { s with pending := rest, keys := keys }

end Sys2Proof.Machine
end

