-- ==== Sys2Proof/Machine/Step.lean ====
section
/-! DEFINITION. One step of the machine: the next operation of the host (spec 60_exceptions.md R281); with none
pending, the operation STEP, one instruction (R80). -/

namespace Sys2Proof.Machine

open Sys2Proof

/-- One step of the machine. -/
def step (s : State) : Host.Outcome State Fault Refusal := Sys2Proof.Machine.perform s

/-- `s` with an instruction of `nbits` bits placed where the next step fetches it: the word high byte first at pc
(R54), the bits above `nbits` zero, and the next operation a STEP on a loaded program (log 21). -/
def State.withFetchWord (s : State) (nbits w : Nat) : State :=
  s.placeWord (BitVec.ofNat 16 (w % 2 ^ nbits))

end Sys2Proof.Machine
end

