-- ==== Sys2Proof/Safety.lean ====
section
/-! DEFINITION. What claims are stated in: a fault-free state (spec 60_exceptions.md R263), the end of a run (R289),
and the invariants of the machine (20_memory.md's canonical form is the model's own; 10_state.md R32 to R34). -/

namespace Sys2Proof.Machine

open Sys2Proof

/-- No fault has been recorded since the last LOAD; a claim about a clean run premises this (R262, R263). -/
def State.FaultFree (s : State) : Prop := s.fault.code = .none

/-- The end of a run: pc holds the address of a `1NNN` whose NNN equals that address (R289). -/
def State.AtSelfJump (s : State) : Prop := ∃ nnn, decodeOp s.opcodeAt = .ok (.jp nnn) ∧ nnn.setWidth 16 = s.pc

/-- The encoding line of an instruction's rule: every opcode with `op AND mask = bits` decodes to this instruction with
the fields the rule names (R80, R89). -/
def EncodedAs (bits mask : Word) (i : Word → Instr) : Prop :=
  ∀ op : Word, op &&& mask = bits → decodeOp op = .ok (i op)

/-- What a byte access at addresses I, I+1, …, I+count−1 meets first above 0xFFF, in ascending order of offset (R55,
R57, R264). -/
def State.firstOutOfRange (s : State) (count : Nat) : Option Word :=
  ((List.range count).map s.indexed).find? (fun a => decide (¬ InRange a))

/-- The fault register after a step part that first meets cause `c` with the value given: the first fault since LOAD is
kept (R262). -/
def State.recordOf (s : State) (c : FaultCode) : Option Word → FaultRecord
  | none => s.fault
  | some info => if s.fault.code = .none then { code := c, pc := s.pc0, op := s.op, info := info } else s.fault

/-- The bit a sprite of `n` rows at I, drawn at the origin V[X] mod 64, V[Y] mod 32, puts on pixel (px, py): bit
7 − (px − x0) of row py − y0, and none outside its 8 by n area (R101 to R103). -/
def State.spriteBit (s : State) (x y : Reg) (n px py : Nat) : Bool :=
  let x0 := (s.getV x).toNat % 64
  let y0 := (s.getV y).toNat % 32
  decide (x0 ≤ px ∧ px < x0 + 8 ∧ y0 ≤ py ∧ py < y0 + n) && (s.peek (s.indexed (py - y0))).getLsbD (7 - (px - x0))

/-- Memory is in its canonical form. -/
def State.MemCanonical (s : State) : Prop := Memory.wf s.cfg s.mem

/-- With no fault recorded the other fields of the fault register are 0 (R33). -/
def State.FaultClearWhenNone (s : State) : Prop := s.fault.code = .none → s.fault = .clear

/-- Whenever a key is latched the instruction at pc is an `FX0A` (R32). -/
def State.LatchedAtWait (s : State) : Prop :=
  ∀ k, s.kw = .latched k → ∃ x, decodeOp s.opcodeAt = .ok (.ldVxK x)

/-- The status of the last LOAD says whether its ROM fits (R34, R303). -/
def State.RomStatus (s : State) : Prop := s.out.loadStatus = .ok ↔ s.lastRom.length ≤ romMax

/-- The invariant that every step keeps. -/
structure State.Inv (s : State) : Prop where
  mem : s.MemCanonical
  fault : s.FaultClearWhenNone
  latch : s.LatchedAtWait
  rom : s.RomStatus

end Sys2Proof.Machine
end

