-- ==== Sys2Proof/Certificates/Slice0/Obligations.lean ====
section
/-! DEFINITION. The statements for the provers. A statement about an instruction is about `exec`, which acts on the
state its step's fetch left: pc is already pc0 + 2 (spec 30_encoding.md R81), `pc0` and `op` are this instruction's
address and opcode. StepRunsDecodedInstruction ties that to `step`. A conclusion `t = { s with f := t.f, … }` is the
frame: every field of the state but those named is unchanged. THE MODEL'S CHOICE wherever they occur: the list `pending`,
with STEP where it is empty (log 1), and the ports held in State (`out`, `pc0` and `op`, `keys`, `draws`, `cfg`: logs 2
to 6). -/

open Sys2Proof Sys2Proof.Machine

/-! ### The step, the fetch and the encodings -/

/-- R80, R81: when the bytes at pc decode to an instruction, a step is `exec` of it on the fetched state; both when no
host operation is pending and when STEP is the next one. Inside memory the fetch latches address and opcode, clears the
step's outputs and advances pc by 2. -/
def Obligations.StepRunsDecodedInstruction : Prop :=
  ∀ (s : State) (i : Instr) (rest : List HostOp), s.out.loadStatus = .ok → i.wellFormed = true →
    decodeBytes [s.peek s.pc, s.peek (s.pc + 1)] = .ok (i, []) →
    (s.pending = [] → step s = exec i s.fetch) ∧
    (s.pending = .step :: rest → step s = exec i ({ s with pending := rest } : State).fetch) ∧
    (InRange s.pc → InRange (s.pc + 1) →
      s.fetch = { s with
        pc0 := s.pc
        op := s.peek s.pc ++ s.peek (s.pc + 1)
        pc := s.pc + 2
        out := { s.out with dirty := false, unimp := false } })

/-- R82: a fetch above 0xFFF supplies 0x00 for each byte out of range and records the first such address; the record
holds the assembled opcode; nothing else differs from a fetch inside memory; the step goes on with that opcode, whether
no host operation is pending or STEP is the next one. The two examples of the rule. -/
def Obligations.FetchOutOfRangeRecordsFirstAddress : Prop :=
  (∀ s : State, (¬ InRange s.pc ∨ ¬ InRange (s.pc + 1)) →
    s.fetch = { s with
      pc0 := s.pc
      op := (if InRange s.pc then s.peek s.pc else 0) ++ (if InRange (s.pc + 1) then s.peek (s.pc + 1) else 0)
      pc := s.pc + 2
      out := { s.out with dirty := false, unimp := false }
      fault := if s.fault.code = .none then
          { code := .addrRange
            pc := s.pc
            op := (if InRange s.pc then s.peek s.pc else 0) ++ (if InRange (s.pc + 1) then s.peek (s.pc + 1) else 0)
            info := if InRange s.pc then s.pc + 1 else s.pc }
        else s.fault }) ∧
  (∀ s : State, s.pending = [] → s.out.loadStatus = .ok → (¬ InRange s.pc ∨ ¬ InRange (s.pc + 1)) →
    (∀ i, decodeOp s.fetch.op = .ok i → step s = exec i s.fetch) ∧
    (∀ r, decodeOp s.fetch.op = .error r →
      step s = .next { s.fetch with out := { s.fetch.out with unimp := true } })) ∧
  (∀ (s : State) (rest : List HostOp), s.pending = .step :: rest → s.out.loadStatus = .ok →
    (¬ InRange s.pc ∨ ¬ InRange (s.pc + 1)) →
    (∀ i, decodeOp s.fetch.op = .ok i → step s = exec i { s.fetch with pending := rest }) ∧
    (∀ r, decodeOp s.fetch.op = .error r →
      step s = .next { s.fetch with pending := rest, out := { s.fetch.out with unimp := true } })) ∧
  (∀ s : State, s.pc = 0x0FFF → s.fault.code = .none →
    s.fetch.op = s.peek 0xFFF ++ (0 : Byte) ∧
    s.fetch.fault = { code := .addrRange, pc := 0x0FFF, op := s.peek 0xFFF ++ (0 : Byte), info := 0x1000 }) ∧
  (∀ s : State, s.pc = 0x1000 → s.fault.code = .none →
    s.fetch.op = 0x0000 ∧ decodeOp 0x0000 = .error (.unimplemented 0x0000) ∧
    s.fetch.fault = { code := .addrRange, pc := 0x1000, op := 0x0000, info := 0x1000 })

/-- R79: an opcode that matches no form changes nothing but what every fetch changes, and sets `unimp`; inside memory it
records no fault; the decoder rejects it by its own name; 0x0000 is one. Both when no host operation is pending and when
STEP is the next one. -/
def Obligations.UnimplementedOpcodeIsNoOp : Prop :=
  decodeOp 0x0000 = .error (.unimplemented 0x0000) ∧
  ∀ (s : State) (r : Reject) (rest : List HostOp), (s.pending = [] ∧ rest = []) ∨ s.pending = .step :: rest →
    s.out.loadStatus = .ok → decodeOp s.opcodeAt = .error r →
    r = .unimplemented s.opcodeAt ∧
    step s = .next { s.fetch with pending := rest, out := { s.out with dirty := false, unimp := true } } ∧
    (InRange s.pc → InRange (s.pc + 1) →
      step s = .next { s with
        pc0 := s.pc
        op := s.opcodeAt
        pc := s.pc + 2
        pending := rest
        out := { s.out with dirty := false, unimp := true } })

/-- R54, R72, R89: words written out from the encodings of the spec, one or two of each family, decode to the
instructions they stand for. -/
def Obligations.SpecWordsDecode : Prop :=
  decodeBytes [0x00, 0xE0] = .ok (.cls, []) ∧
  decodeBytes [0xD0, 0x1F] = .ok (.drw 0 1 15, []) ∧
  decodeBytes [0x00, 0xEE] = .ok (.ret, []) ∧
  decodeBytes [0x22, 0x10] = .ok (.call 0x210, []) ∧
  decodeBytes [0x33, 0x42] = .ok (.seImm 3 0x42, []) ∧
  decodeBytes [0x8A, 0xB4] = .ok (.addReg 0xA 0xB, []) ∧
  decodeBytes [0xC3, 0x0F] = .ok (.rnd 3 0x0F, []) ∧
  decodeBytes [0xA3, 0x00] = .ok (.ldI 0x300, []) ∧
  decodeBytes [0xF2, 0x65] = .ok (.loadRegs 2, []) ∧
  decodeBytes [0xE1, 0x9E] = .ok (.skp 1, []) ∧
  decodeBytes [0xF3, 0x15] = .ok (.ldDtVx 3, [])

/-- Decoding the encoding of any well-formed instruction gives it back, every operand at every value, whatever bytes
follow. -/
def Obligations.DecodeOfEncode : Prop :=
  ∀ (i : Instr) (rest : List Byte), i.wellFormed = true →
    decodeOp (encode i) = .ok i ∧
    decodeBytes ((encode i).extractLsb' 8 8 :: (encode i).extractLsb' 0 8 :: rest) = .ok (i, rest)

/-- Every opcode that decodes is the encoding of exactly what it decodes to, and that instruction is well formed. -/
def Obligations.EncodeOfDecode : Prop :=
  ∀ (op : Word) (i : Instr), decodeOp op = .ok i → i.wellFormed = true ∧ encode i = op

/-- R86: an opcode is an instance of a form only when every fixed digit is equal, and of at most one form; the
examples of the rule. -/
def Obligations.OpcodeMatchesAtMostOneForm : Prop :=
  (∀ op : Word, (∃ i, decodeOp op = .ok i) ↔ ∃ r ∈ opcodeTable, op &&& r.mask = r.bits) ∧
  (∀ (op : Word) (i : Instr), decodeOp op = .ok i → op &&& (tableRow i).mask = (tableRow i).bits) ∧
  (∀ (op : Word), ∀ r ∈ opcodeTable, ∀ q ∈ opcodeTable,
    op &&& r.mask = r.bits → op &&& q.mask = q.bits → r = q) ∧
  (∀ op : Word, decodeOp op = .ok .cls ↔ op = 0x00E0) ∧
  (∀ op : Word, decodeOp op = .ok .ret ↔ op = 0x00EE) ∧
  (∀ (op : Word) (x y : Reg), decodeOp op = .ok (.seReg x y) → op.extractLsb' 0 4 = 0#4) ∧
  (∀ (op : Word) (x y : Reg), decodeOp op = .ok (.sneReg x y) → op.extractLsb' 0 4 = 0#4) ∧
  decodeOp 0x01E0 = .error (.unimplemented 0x01E0) ∧
  decodeOp 0x00EF = .error (.unimplemented 0x00EF) ∧
  decodeOp 0x5121 = .error (.unimplemented 0x5121)

/-! ### Reset and load -/

/-- State.reset is the state after a LOAD of no bytes (R301 with L = 0): every element at the value of R301's table.
The empty program and the parameters are the model's choice (logs 6, 7, 17). -/
def Obligations.ResetStateValues : Prop :=
  (∀ r, State.reset.getV r = 0) ∧ State.reset.i = 0 ∧ State.reset.pc = 0x200 ∧ State.reset.sp = 0 ∧
  (∀ j < 16, State.reset.stack[j]? = some 0) ∧ State.reset.dt = 0 ∧ State.reset.st = 0 ∧
  (∀ k < 2048, State.reset.fb.bit k = false) ∧
  (∀ a : Word, a.toNat < 80 → some (State.reset.peek a) = State.reset.cfg.fontTable[a.toNat]?) ∧
  (∀ a : Word, 80 ≤ a.toNat → State.reset.peek a = 0) ∧
  State.reset.kw = .idle ∧ State.reset.fault = { code := .none, pc := 0, op := 0, info := 0 }

/-- After R301: the state after LOAD returns OK, element by element, from any state. That every byte outside font and
program is 0 is the spec's own inference ("all of Machine State to zero" [derived]). MODEL'S CHOICE: the parameters, the keys and
the pending operations stay (log 23). -/
def Obligations.LoadLeavesResetStateAndRom : Prop :=
  ∀ (s : State) (rom : List Byte) (rest : List HostOp), s.pending = .load rom :: rest → rom.length ≤ 3584 →
    ∃ t, step s = .next t ∧ t.out.loadStatus = .ok ∧
      (∀ r, t.getV r = 0) ∧ t.i = 0 ∧ t.pc = 0x200 ∧ t.sp = 0 ∧ (∀ j < 16, t.stack[j]? = some 0) ∧
      t.dt = 0 ∧ t.st = 0 ∧ (∀ k < 2048, t.fb.bit k = false) ∧
      (∀ a : Word, a.toNat < 0x50 → some (t.peek a) = s.cfg.fontTable[a.toNat]?) ∧
      (∀ a : Word, 0x50 ≤ a.toNat → a.toNat < 0x200 → t.peek a = 0) ∧
      (∀ (j : Nat) (b : Byte), rom[j]? = some b → t.peek (BitVec.ofNat 16 (0x200 + j)) = b) ∧
      (∀ a : Word, 0x200 + rom.length ≤ a.toNat → t.peek a = 0) ∧
      t.kw = .idle ∧ t.fault = { code := .none, pc := 0, op := 0, info := 0 } ∧
      t.lastRom = rom ∧ t.cfg = s.cfg ∧ t.keys = s.keys ∧ t.pending = rest

/-- After R303: a ROM above 3584 bytes is rejected and leaves the reset state with the font and no ROM byte; 3584 bytes
are accepted, and so are none. That the bytes 0x050 to 0x1FF are 0 is the spec's own inference (the row of R301 marked
"all of Machine State to zero" [derived]). -/
def Obligations.RejectedLoadLeavesNoRom : Prop :=
  (∀ (s : State) (rom : List Byte) (rest : List HostOp), s.pending = .load rom :: rest →
    ∃ t, step s = .next t ∧ (t.out.loadStatus = .romTooLarge ↔ 3584 < rom.length) ∧
      (t.out.loadStatus = .ok ↔ rom.length ≤ 3584) ∧
      (3584 < rom.length →
        (∀ r, t.getV r = 0) ∧ t.i = 0 ∧ t.pc = 0x200 ∧ t.sp = 0 ∧ (∀ j < 16, t.stack[j]? = some 0) ∧
        t.dt = 0 ∧ t.st = 0 ∧ (∀ k < 2048, t.fb.bit k = false) ∧
        (∀ a : Word, a.toNat < 0x50 → some (t.peek a) = s.cfg.fontTable[a.toNat]?) ∧
        (∀ a : Word, 0x50 ≤ a.toNat → t.peek a = 0) ∧
        t.kw = .idle ∧ t.fault = { code := .none, pc := 0, op := 0, info := 0 }) ∧
      (rom.length = 3584 → ∀ (j : Nat) (b : Byte), rom[j]? = some b → t.peek (BitVec.ofNat 16 (0x200 + j)) = b) ∧
      (rom.length = 0 → ∀ a : Word, 0x200 ≤ a.toNat → t.peek a = 0))

/-- R304: RELOAD is LOAD with the bytes of the previous LOAD, from any state a LOAD left and anything since left
`lastRom` as it was; a LOAD of any length is what sets those bytes. -/
def Obligations.ReloadRepeatsLastLoad : Prop :=
  (∀ (s : State) (rest : List HostOp), s.pending = .reload :: rest →
    step s = step { s with pending := .load s.lastRom :: rest }) ∧
  (∀ (s : State) (rom : List Byte) (rest : List HostOp), s.pending = .load rom :: rest →
    ∃ t, step s = .next t ∧ t.lastRom = rom) ∧
  (∀ (s t : State), step s = .next t → (∀ rom rest, s.pending ≠ .load rom :: rest) → t.lastRom = s.lastRom)

/-- MODEL'S CHOICE after 93 U14 (log 9): after a rejected LOAD a STEP and a TICK are refused by name, and nothing else
is ever refused: LOAD and RELOAD go on then ("may retry with another ROM", R303), a change of KEYS has its whole effect
whatever the last LOAD answered, and after an accepted LOAD every operation goes on. -/
def Obligations.OnlyRunsAfterRejectedLoadAreRefused : Prop :=
  ∀ s : State,
    (s.out.loadStatus = .romTooLarge →
      (s.pending = [] ∨ (∃ rest, s.pending = .step :: rest) ∨ ∃ rest, s.pending = .tick :: rest) →
      step s = .refused .afterRejectedLoad) ∧
    (s.out.loadStatus = .romTooLarge →
      ((∃ rom rest, s.pending = .load rom :: rest) ∨ ∃ rest, s.pending = .reload :: rest) →
      ∃ t, step s = .next t) ∧
    (∀ keys rest, s.pending = .setKeys keys :: rest → step s = .next { s with pending := rest, keys := keys }) ∧
    (s.out.loadStatus = .ok → ∃ t, step s = .next t)

/-! ### Invariants -/

/-- The invariant holds at reset; its canonical memory is the form of the model's choice (log 18). -/
def Obligations.InvariantHoldsAtReset : Prop := State.reset.Inv

/-- Every step keeps memory canonical, from every state that has it so; the form is the model's choice (log 18). -/
def Obligations.StepKeepsMemoryCanonical : Prop :=
  ∀ s t : State, s.MemCanonical → step s = .next t → t.MemCanonical

/-- After 10_state.md R32, which the spec marks as its own inference ([derived: from R234, R61, R300]): whenever a key is
latched at the start of a step, the instruction at pc is an `FX0A`; every step of the machine keeps that, ticks, loads
and key changes included. And it is the one that latched the key: the step that latches leaves
pc at it, and while the key stays latched pc and the opcode there stay. -/
def Obligations.StepKeepsLatchAtWaitInstruction : Prop :=
  State.reset.LatchedAtWait ∧
  (∀ s t : State, s.LatchedAtWait → step s = .next t → t.LatchedAtWait) ∧
  (∀ (s t : State) (k : Key), (s.pending = [] ∨ ∃ rest, s.pending = .step :: rest) → s.kw = .idle →
    step s = .next t → t.kw = .latched k → t.pc = s.pc ∧ t.opcodeAt = s.opcodeAt) ∧
  (∀ (s t : State) (k : Key), s.LatchedAtWait → s.kw = .latched k → step s = .next t → t.kw = .latched k →
    t.pc = s.pc ∧ t.opcodeAt = s.opcodeAt)

/-- Every step keeps the whole invariant: canonical memory (the model's form, log 18), a clear fault register while no
fault is recorded, the latch at its `FX0A`, and a load status that says whether the ROM fits. -/
def Obligations.StepKeepsInvariant : Prop := ∀ s t : State, s.Inv → step s = .next t → t.Inv

/-- R262: recording takes the first fault only, with this step's address and opcode, for the fetch the opcode assembled
with 0x00 for each byte out of range; no step and no tick clears a recorded fault; LOAD and RELOAD do. -/
def Obligations.FirstFaultIsKeptUntilLoad : Prop :=
  (∀ (s : State) (c : FaultCode) (info : Word),
    s.raise c info = if s.fault.code = .none
      then { s with fault := { code := c, pc := s.pc0, op := s.op, info := info } } else s) ∧
  (∀ s : State, (¬ InRange s.pc ∨ ¬ InRange (s.pc + 1)) → s.fault.code = .none →
    s.fetch.fault.pc = s.pc ∧
    s.fetch.fault.op =
      (if InRange s.pc then s.peek s.pc else 0) ++ (if InRange (s.pc + 1) then s.peek (s.pc + 1) else 0)) ∧
  (∀ s t : State, s.fault.code ≠ .none →
    (∀ rom rest, s.pending ≠ .load rom :: rest) → (∀ rest, s.pending ≠ .reload :: rest) →
    step s = .next t → t.fault = s.fault) ∧
  (∀ s t : State, ((∃ rom rest, s.pending = .load rom :: rest) ∨ ∃ rest, s.pending = .reload :: rest) →
    step s = .next t → t.fault = { code := .none, pc := 0, op := 0, info := 0 })

/-! ### Display -/

/-- R100. -/
def Obligations.ClsClearsDisplay : Prop :=
  EncodedAs 0x00E0 0xFFFF (fun _ => .cls) ∧
  ∀ s : State, ∃ t, exec .cls s = .next t ∧
    (∀ k < 2048, t.fb.bit k = false) ∧ (∀ a, t.peek a = s.peek a) ∧
    t = { s with fb := t.fb, out := { s.out with dirty := true } }

/-- R101, R102: each pixel becomes the old one XOR the sprite's bit there; the sprite is clipped at the right and bottom
edges; the origin is V[X] mod 64, V[Y] mod 32 before VF is cleared; VF is 1 exactly when a drawn 1 bit met a 1 pixel;
every row is read, and the first row address above 0xFFF is recorded; dirty is set; nothing else changes. -/
def Obligations.DrwXorsClippedSprite : Prop :=
  EncodedAs 0xD000 0xF000 (fun op => .drw (xField op) (yField op) (nField op).toNat) ∧
  ∀ (s : State) (x y : Reg) (n : Nat), n < 16 → ∃ t, exec (.drw x y n) s = .next t ∧
    (∀ px py, px < 64 → py < 32 → t.fb.pixel px py = (s.fb.pixel px py ^^ s.spriteBit x y n px py)) ∧
    (t.getV 15 = 0 ∨ t.getV 15 = 1) ∧
    (t.getV 15 = 1 ↔ ∃ px py, px < 64 ∧ py < 32 ∧ s.spriteBit x y n px py = true ∧ s.fb.pixel px py = true) ∧
    (∀ r, r ≠ 15 → t.getV r = s.getV r) ∧
    t.fault = s.recordOf .addrRange (s.firstOutOfRange n) ∧ (∀ a, t.peek a = s.peek a) ∧
    t = { s with v := t.v, fb := t.fb, fault := t.fault, out := { s.out with dirty := true } }

/-- Drawing the same sprite at the same place twice restores the display; from a clear display the second draw sets VF
exactly when the sprite drew a 1 bit (R102, R104, S7). -/
def Obligations.DrawingTwiceRestoresDisplay : Prop :=
  ∀ (s : State) (x y : Reg) (n : Nat), n < 16 → x ≠ 15 → y ≠ 15 →
    ∃ t u, exec (.drw x y n) s = .next t ∧ exec (.drw x y n) t = .next u ∧ u.fb = s.fb ∧
      ((∀ px py, px < 64 → py < 32 → s.fb.pixel px py = false) →
        t.getV 15 = 0 ∧
        (u.getV 15 = 1 ↔ ∃ px py, px < 64 ∧ py < 32 ∧ s.spriteBit x y n px py = true))

/-- R105: `00E0` and `DXYN` set `dirty` in every execution and no other instruction sets it, nor does an opcode of no
form. -/
def Obligations.OnlyDisplayInstructionsSetDirty : Prop :=
  (∀ (i : Instr) (s t : State), exec i s.fetch = .next t →
    (t.out.dirty = true ↔ i = .cls ∨ ∃ x y n, i = .drw x y n)) ∧
  (∀ (s t : State) (r : Reject), (s.pending = [] ∨ ∃ rest, s.pending = .step :: rest) →
    decodeOp s.opcodeAt = .error r → step s = .next t → t.out.dirty = false)

/-! ### Control transfer -/

/-- R121. -/
def Obligations.JpSetsPc : Prop :=
  EncodedAs 0x1000 0xF000 (fun op => .jp (nnnField op)) ∧
  ∀ (s : State) (nnn : Addr12), exec (.jp nnn) s = .next { s with pc := nnn.setWidth 16 }

/-- R123: the target is NNN + V0, and no other register is read. -/
def Obligations.JpV0AddsV0 : Prop :=
  EncodedAs 0xB000 0xF000 (fun op => .jpV0 (nnnField op)) ∧
  ∀ (s : State) (nnn : Addr12), ∃ t, exec (.jpV0 nnn) s = .next t ∧
    t.pc.toNat = (nnn.toNat + (s.getV 0).toNat) % 65536 ∧ t.pc.toNat ≤ 0x10FE ∧ t = { s with pc := t.pc }

/-- R122. -/
def Obligations.CallPushesReturnAddress : Prop :=
  EncodedAs 0x2000 0xF000 (fun op => .call (nnnField op)) ∧
  (∀ (s : State) (nnn : Addr12), s.sp.val < 16 → ∃ t, exec (.call nnn) s = .next t ∧
    t.stack[s.sp.val]? = some s.pc ∧ (∀ j : Nat, j ≠ s.sp.val → t.stack[j]? = s.stack[j]?) ∧
    t.sp.val = s.sp.val + 1 ∧ t.pc = nnn.setWidth 16 ∧ t = { s with stack := t.stack, sp := t.sp, pc := t.pc }) ∧
  (∀ (s : State) (nnn : Addr12), s.sp.val = 16 →
    exec (.call nnn) s = .next { s with fault := s.recordOf .stackOverflow (some 16) })

/-- R120. -/
def Obligations.RetPopsReturnAddress : Prop :=
  EncodedAs 0x00EE 0xFFFF (fun _ => .ret) ∧
  (∀ s : State, 0 < s.sp.val → ∃ t, exec .ret s = .next t ∧
    t.sp.val = s.sp.val - 1 ∧ some t.pc = s.stack[s.sp.val - 1]? ∧ t = { s with sp := t.sp, pc := t.pc }) ∧
  (∀ s : State, s.sp.val = 0 →
    exec .ret s = .next { s with fault := s.recordOf .stackUnderflow (some 0) })

/-- `00EE` after `2NNN` returns to the instruction after the call, whatever pc the subroutine ran to (S8). -/
def Obligations.RetUndoesCall : Prop :=
  ∀ (s : State) (nnn : Addr12) (pc : Word), s.sp.val < 16 →
    ∃ t u, exec (.call nnn) s = .next t ∧ exec .ret { t with pc := pc } = .next u ∧
      u.pc = s.pc ∧ u.sp = s.sp ∧ u = { t with pc := s.pc, sp := s.sp }

/-! ### Skips -/

/-- R140 to R143: a taken skip adds 2 to pc, and nothing else ever changes. -/
def Obligations.SkipsAddTwoToPc : Prop :=
  EncodedAs 0x3000 0xF000 (fun op => .seImm (xField op) (nnField op)) ∧
  EncodedAs 0x4000 0xF000 (fun op => .sneImm (xField op) (nnField op)) ∧
  EncodedAs 0x5000 0xF00F (fun op => .seReg (xField op) (yField op)) ∧
  EncodedAs 0x9000 0xF00F (fun op => .sneReg (xField op) (yField op)) ∧
  ∀ (s : State) (x y : Reg) (nn : Byte),
    exec (.seImm x nn) s = .next { s with pc := if s.getV x = nn then s.pc + 2 else s.pc } ∧
    exec (.sneImm x nn) s = .next { s with pc := if s.getV x = nn then s.pc else s.pc + 2 } ∧
    exec (.seReg x y) s = .next { s with pc := if s.getV x = s.getV y then s.pc + 2 else s.pc } ∧
    exec (.sneReg x y) s = .next { s with pc := if s.getV x = s.getV y then s.pc else s.pc + 2 }

/-! ### ALU -/

/-- R161, R162: load and add immediate; the sum wraps modulo 256 and VF is not written as a carry. -/
def Obligations.ImmediateLoadAndAdd : Prop :=
  EncodedAs 0x6000 0xF000 (fun op => .ldImm (xField op) (nnField op)) ∧
  EncodedAs 0x7000 0xF000 (fun op => .addImm (xField op) (nnField op)) ∧
  ∀ (s : State) (x : Reg) (nn : Byte),
    exec (.ldImm x nn) s = .next { s with v := s.v.set x.val nn } ∧
    ∃ w : Byte, w.toNat = ((s.getV x).toNat + nn.toNat) % 256 ∧
      exec (.addImm x nn) s = .next { s with v := s.v.set x.val w }

/-- R165 to R168: copy, OR, AND, XOR; VF is not touched unless it is V[X]. -/
def Obligations.RegisterCopyAndLogic : Prop :=
  EncodedAs 0x8000 0xF00F (fun op => .ldReg (xField op) (yField op)) ∧
  EncodedAs 0x8001 0xF00F (fun op => .orReg (xField op) (yField op)) ∧
  EncodedAs 0x8002 0xF00F (fun op => .andReg (xField op) (yField op)) ∧
  EncodedAs 0x8003 0xF00F (fun op => .xorReg (xField op) (yField op)) ∧
  ∀ (s : State) (x y : Reg),
    exec (.ldReg x y) s = .next { s with v := s.v.set x.val (s.getV y) } ∧
    exec (.orReg x y) s = .next { s with v := s.v.set x.val (s.getV x ||| s.getV y) } ∧
    exec (.andReg x y) s = .next { s with v := s.v.set x.val (s.getV x &&& s.getV y) } ∧
    exec (.xorReg x y) s = .next { s with v := s.v.set x.val (s.getV x ^^^ s.getV y) }

/-- R170, with every corner case: a and b are V[X] and V[Y] before, c the carry. -/
def Obligations.AddRegWritesSumAndCarry : Prop :=
  EncodedAs 0x8004 0xF00F (fun op => .addReg (xField op) (yField op)) ∧
  ∀ (s : State) (x y : Reg) (a b c : Nat), a = (s.getV x).toNat → b = (s.getV y).toNat →
    c = (if a + b > 255 then 1 else 0) →
    ∃ t, exec (.addReg x y) s = .next t ∧
      (x ≠ 15 → y ≠ 15 → (t.getV x).toNat = (a + b) % 256 ∧ (t.getV 15).toNat = c) ∧
      (x = 15 → y ≠ 15 → (t.getV 15).toNat = (c + b) % 256) ∧
      (x ≠ 15 → y = 15 → (t.getV x).toNat = (a + c) % 256 ∧ (t.getV 15).toNat = c) ∧
      (x = 15 → y = 15 → (t.getV 15).toNat = 2 * c) ∧
      (∀ r, r ≠ x → r ≠ 15 → t.getV r = s.getV r) ∧ (∀ m, t.peek m = s.peek m) ∧ t = { s with v := t.v }

/-- R171, with every corner case: g is 1 when a > b, strictly. -/
def Obligations.SubRegWritesDifferenceAndGreater : Prop :=
  EncodedAs 0x8005 0xF00F (fun op => .subReg (xField op) (yField op)) ∧
  ∀ (s : State) (x y : Reg) (a b g : Nat), a = (s.getV x).toNat → b = (s.getV y).toNat →
    g = (if a > b then 1 else 0) →
    ∃ t, exec (.subReg x y) s = .next t ∧
      (x ≠ 15 → y ≠ 15 → (t.getV x).toNat = (256 + a - b) % 256 ∧ (t.getV 15).toNat = g) ∧
      (x = 15 → y ≠ 15 → (t.getV 15).toNat = (256 + g - b) % 256) ∧
      (x ≠ 15 → y = 15 → (t.getV x).toNat = (256 + a - g) % 256 ∧ (t.getV 15).toNat = g) ∧
      (x = 15 → y = 15 → t.getV 15 = 0) ∧
      (∀ r, r ≠ x → r ≠ 15 → t.getV r = s.getV r) ∧ (∀ m, t.peek m = s.peek m) ∧ t = { s with v := t.v }

/-- R172, with every corner case: g is 1 when b > a, strictly. -/
def Obligations.SubnRegWritesDifferenceAndGreater : Prop :=
  EncodedAs 0x8007 0xF00F (fun op => .subnReg (xField op) (yField op)) ∧
  ∀ (s : State) (x y : Reg) (a b g : Nat), a = (s.getV x).toNat → b = (s.getV y).toNat →
    g = (if b > a then 1 else 0) →
    ∃ t, exec (.subnReg x y) s = .next t ∧
      (x ≠ 15 → y ≠ 15 → (t.getV x).toNat = (256 + b - a) % 256 ∧ (t.getV 15).toNat = g) ∧
      (x = 15 → y ≠ 15 → (t.getV 15).toNat = (256 + b - g) % 256) ∧
      (x ≠ 15 → y = 15 → (t.getV x).toNat = (256 + g - a) % 256 ∧ (t.getV 15).toNat = g) ∧
      (x = 15 → y = 15 → t.getV 15 = 0) ∧
      (∀ r, r ≠ x → r ≠ 15 → t.getV r = s.getV r) ∧ (∀ m, t.peek m = s.peek m) ∧ t = { s with v := t.v }

/-- R173: for both values of SHR_FLAG_MASK; V[Y] is never read. -/
def Obligations.ShrShiftsRightAndMasksFlag : Prop :=
  EncodedAs 0x8006 0xF00F (fun op => .shr (xField op) (yField op)) ∧
  ∀ (s : State) (x y : Reg) (a f : Nat), a = (s.getV x).toNat →
    f = (if s.cfg.shrFlagMask = .lowBit then a % 2 else a % 16) →
    ∃ t, exec (.shr x y) s = .next t ∧
      (x ≠ 15 → (t.getV x).toNat = a / 2 ∧ (t.getV 15).toNat = f) ∧
      (x = 15 → (t.getV 15).toNat = f / 2) ∧
      (∀ r, r ≠ x → r ≠ 15 → t.getV r = s.getV r) ∧ (∀ m, t.peek m = s.peek m) ∧ t = { s with v := t.v }

/-- R175; V[Y] is never read. -/
def Obligations.ShlShiftsLeftAndTakesTopBit : Prop :=
  EncodedAs 0x800E 0xF00F (fun op => .shl (xField op) (yField op)) ∧
  ∀ (s : State) (x y : Reg) (a : Nat), a = (s.getV x).toNat →
    ∃ t, exec (.shl x y) s = .next t ∧
      (x ≠ 15 → (t.getV x).toNat = 2 * a % 256 ∧ (t.getV 15).toNat = a / 128) ∧
      (x = 15 → (t.getV 15).toNat = 2 * (a / 128)) ∧
      (∀ r, r ≠ x → r ≠ 15 → t.getV r = s.getV r) ∧ (∀ m, t.peek m = s.peek m) ∧ t = { s with v := t.v }

/-- R178: the draw is a free value (log 4), so this holds for every value of it; one draw is used up, and every bit
outside NN is 0. -/
def Obligations.RndMasksOneFreshDraw : Prop :=
  EncodedAs 0xC000 0xF000 (fun op => .rnd (xField op) (nnField op)) ∧
  ∀ (s : State) (x : Reg) (nn : Byte),
    ∃ t, exec (.rnd x nn) s = .next t ∧ t.getV x = Config.randomByte s.draws &&& nn ∧ t.draws = s.draws + 1 ∧
      t.getV x &&& ~~~nn = 0 ∧ (∀ r, r ≠ x → t.getV r = s.getV r) ∧ (∀ m, t.peek m = s.peek m) ∧
      t = { s with v := t.v, draws := t.draws }

/-! ### Index and memory -/

/-- R200 to R202. -/
def Obligations.IndexInstructionsSetI : Prop :=
  EncodedAs 0xA000 0xF000 (fun op => .ldI (nnnField op)) ∧
  EncodedAs 0xF01E 0xF0FF (fun op => .addI (xField op)) ∧
  EncodedAs 0xF029 0xF0FF (fun op => .ldF (xField op)) ∧
  ∀ (s : State) (x : Reg) (nnn : Addr12),
    exec (.ldI nnn) s = .next { s with i := nnn.setWidth 16 } ∧
    (∃ w : Word, w.toNat = (s.i.toNat + (s.getV x).toNat) % 65536 ∧ exec (.addI x) s = .next { s with i := w }) ∧
    (∃ w : Word, w.toNat = (s.getV x).toNat * 5 ∧ exec (.ldF x) s = .next { s with i := w })

/-- R203: the three digits at I, I+1, I+2, each address wrapping and checked on its own; every other byte reads as
before. Canonical memory is the model's form (log 18), which every step keeps (StepKeepsMemoryCanonical). -/
def Obligations.BcdStoresDigits : Prop :=
  EncodedAs 0xF033 0xF0FF (fun op => .ldB (xField op)) ∧
  ∀ (s : State) (x : Reg), s.MemCanonical → ∃ t, exec (.ldB x) s = .next t ∧
    (InRange s.i → (t.peek s.i).toNat = (s.getV x).toNat / 100) ∧
    (InRange (s.i + 1) → (t.peek (s.i + 1)).toNat = (s.getV x).toNat / 10 % 10) ∧
    (InRange (s.i + 2) → (t.peek (s.i + 2)).toNat = (s.getV x).toNat % 10) ∧
    (∀ a, a ≠ s.i → a ≠ s.i + 1 → a ≠ s.i + 2 → t.peek a = s.peek a) ∧
    t.fault = s.recordOf .addrRange (s.firstOutOfRange 3) ∧
    t = { s with mem := t.mem, fault := t.fault }

/-- After R205: V0 to V[X] at I to I+X, each address wrapping and checked on its own; every other byte reads as before.
That I stays is the spec's own inference ([derived: I unchanged, from §8 Round-trip]). Canonical memory is the model's form (log
18), which every step keeps (StepKeepsMemoryCanonical). -/
def Obligations.StoreRegsWritesRange : Prop :=
  EncodedAs 0xF055 0xF0FF (fun op => .storeRegs (xField op)) ∧
  ∀ (s : State) (x : Reg), s.MemCanonical → ∃ t, exec (.storeRegs x) s = .next t ∧
    (∀ k : Reg, k ≤ x → InRange (s.indexed k.val) → t.peek (s.indexed k.val) = s.getV k) ∧
    (∀ a, (∀ k : Reg, k ≤ x → a ≠ s.indexed k.val) → t.peek a = s.peek a) ∧
    t.fault = s.recordOf .addrRange (s.firstOutOfRange (x.val + 1)) ∧
    t = { s with mem := t.mem, fault := t.fault }

/-- R206: V0 to V[X] from I to I+X; a byte above 0xFFF loads 0x00. -/
def Obligations.LoadRegsReadsRange : Prop :=
  EncodedAs 0xF065 0xF0FF (fun op => .loadRegs (xField op)) ∧
  ∀ (s : State) (x : Reg), ∃ t, exec (.loadRegs x) s = .next t ∧
    (∀ k : Reg, k ≤ x → InRange (s.indexed k.val) → t.getV k = s.peek (s.indexed k.val)) ∧
    (∀ k : Reg, k ≤ x → ¬ InRange (s.indexed k.val) → t.getV k = 0) ∧
    (∀ k : Reg, x < k → t.getV k = s.getV k) ∧
    t.fault = s.recordOf .addrRange (s.firstOutOfRange (x.val + 1)) ∧ (∀ a, t.peek a = s.peek a) ∧
    t = { s with v := t.v, fault := t.fault }

/-- `FX55` then `FX65` with unchanged I and X restores the registers, whatever they were overwritten with (S5). -/
def Obligations.LoadUndoesStore : Prop :=
  ∀ (s : State) (x : Reg) (v : Vector Byte 16), s.MemCanonical →
    (∀ k : Reg, k ≤ x → InRange (s.indexed k.val)) →
    ∃ t u, exec (.storeRegs x) s = .next t ∧ exec (.loadRegs x) { t with v := v } = .next u ∧
      (∀ k : Reg, k ≤ x → u.getV k = s.getV k) ∧ u.i = s.i ∧ u.fault = s.fault

/-- R64: a byte stored by `FX55` where the next instruction stands is what the next fetch reads. -/
def Obligations.StoreIsSeenByNextFetch : Prop :=
  ∀ (s : State) (x : Reg), s.MemCanonical → 1 ≤ x.val → s.i = s.pc → InRange s.pc → InRange (s.pc + 1) →
    ∃ t, exec (.storeRegs x) s = .next t ∧ t.fetch.op = s.getV 0 ++ s.getV 1

/-! ### Keys -/

/-- R230 to R232: the key skips, for a key number and for a value above 0x0F. -/
def Obligations.KeySkipsReadKeyLevel : Prop :=
  EncodedAs 0xE09E 0xF0FF (fun op => .skp (xField op)) ∧
  EncodedAs 0xE0A1 0xF0FF (fun op => .sknp (xField op)) ∧
  ∀ (s : State) (x : Reg) (v : Nat), v = (s.getV x).toNat →
    (v ≤ 15 →
      exec (.skp x) s = .next { s with pc := if s.keys.getLsbD v = true then s.pc + 2 else s.pc } ∧
      exec (.sknp x) s = .next { s with pc := if s.keys.getLsbD v = true then s.pc else s.pc + 2 }) ∧
    (15 < v →
      exec (.skp x) s = .next { s with fault := s.recordOf .keyRange (some (BitVec.ofNat 16 v)) } ∧
      exec (.sknp x) s =
        .next { s with pc := s.pc + 2, fault := s.recordOf .keyRange (some (BitVec.ofNat 16 v)) })

/-- R233, R234: the four rows of the transition table. -/
def Obligations.KeyWaitTransitions : Prop :=
  EncodedAs 0xF00A 0xF0FF (fun op => .ldVxK (xField op)) ∧
  ∀ (s : State) (x : Reg) (k : Key),
    (s.kw = .idle → (∀ j : Key, s.keys.getLsbD j.val = false) →
      exec (.ldVxK x) s = .next { s with pc := s.pc - 2 }) ∧
    (s.kw = .idle → s.keys.getLsbD k.val = true → (∀ j : Key, j < k → s.keys.getLsbD j.val = false) →
      exec (.ldVxK x) s = .next { s with kw := .latched k, pc := s.pc - 2 }) ∧
    (s.kw = .latched k → s.keys.getLsbD k.val = true →
      exec (.ldVxK x) s = .next { s with pc := s.pc - 2 }) ∧
    (s.kw = .latched k → s.keys.getLsbD k.val = false →
      ∃ t, exec (.ldVxK x) s = .next t ∧ (t.getV x).toNat = k.val ∧ t.kw = .idle ∧
        (∀ r, r ≠ x → t.getV r = s.getV r) ∧ t = { s with v := t.v, kw := t.kw })

/-- With no key pressed, any number of steps at an `FX0A` leaves pc, the latch and the registers as they are (S9). -/
def Obligations.KeyWaitHoldsWithoutKeys : Prop :=
  ∀ (s : State) (x : Reg) (n : Nat), s.pending = [] → s.out.loadStatus = .ok →
    decodeOp s.opcodeAt = .ok (.ldVxK x) → s.kw = .idle → s.keys = 0 →
    ∃ t : State, Sys2Proof.core.run n s = .next t ∧ t.pc = s.pc ∧ t.kw = .idle ∧ t.v = s.v ∧ t.mem = s.mem

/-- Pressing a key, holding it for any number of steps and releasing it completes an `FX0A` once, with the lowest
pressed key's number in V[X] and pc one instruction on; until the release pc stays (S10, R234, R235). -/
def Obligations.KeyPressHoldReleaseCommits : Prop :=
  ∀ (s : State) (x : Reg) (k : Key) (pressed released : BitVec 16) (n : Nat) (rest : List HostOp),
    s.out.loadStatus = .ok → decodeOp s.opcodeAt = .ok (.ldVxK x) → s.kw = .idle →
    pressed.getLsbD k.val = true → (∀ j : Key, j < k → pressed.getLsbD j.val = false) →
    released.getLsbD k.val = false →
    s.pending = .setKeys pressed :: (List.replicate (n + 1) .step ++ .setKeys released :: .step :: rest) →
    (∃ t : State, Sys2Proof.core.run (n + 2) s = .next t ∧ t.pc = s.pc ∧ t.kw = .latched k ∧ t.v = s.v) ∧
    (∃ t : State, Sys2Proof.core.run (n + 4) s = .next t ∧ t.pc = s.pc + 2 ∧ t.kw = .idle ∧
      (t.getV x).toNat = k.val ∧ (∀ r, r ≠ x → t.getV r = s.getV r) ∧ t.pending = rest)

/-! ### Timers and the tick -/

/-- R250 to R252. -/
def Obligations.TimerInstructionsMoveTimers : Prop :=
  EncodedAs 0xF007 0xF0FF (fun op => .ldVxDt (xField op)) ∧
  EncodedAs 0xF015 0xF0FF (fun op => .ldDtVx (xField op)) ∧
  EncodedAs 0xF018 0xF0FF (fun op => .ldStVx (xField op)) ∧
  ∀ (s : State) (x : Reg),
    exec (.ldVxDt x) s = .next { s with v := s.v.set x.val s.dt } ∧
    exec (.ldDtVx x) s = .next { s with dt := s.getV x } ∧
    exec (.ldStVx x) s = .next { s with st := s.getV x }

/-- After R270 to R273: TICK is STEPS_PER_TICK STEPs and then the timer update; it reports dirty when one of its steps
did, and sound as st before its decrement. MODEL'S CHOICE (log 24): the per-step outputs after it are those of its last
step. -/
def Obligations.TickIsStepsThenTimerUpdate : Prop :=
  ∀ (s : State) (rest : List HostOp) (n : Nat), s.pending = .tick :: rest → s.out.loadStatus = .ok →
    n = s.cfg.ips / 60 →
    ∃ (u : State) (d : Bool), Sys2Proof.core.run n ({ s with pending := [] } : State) = .next u ∧
      (d = true ↔ ∃ k < n, ∃ w : State,
        Sys2Proof.core.run (k + 1) ({ s with pending := [] } : State) = .next w ∧ w.out.dirty = true) ∧
      step s = .next { u with
        pending := rest
        dt := if u.dt = 0 then 0 else u.dt - 1
        st := if u.st = 0 then 0 else u.st - 1
        out := { u.out with tickDirty := d, soundActive := decide (u.st ≠ 0) } }

/-- R274: below 60 instructions per second a TICK runs no instruction; it only counts the timers down and reports. -/
def Obligations.TickOfNoStepsOnlyCountsDown : Prop :=
  ∀ (s : State) (rest : List HostOp), s.pending = .tick :: rest → s.out.loadStatus = .ok → s.cfg.ips < 60 →
    ∃ t, step s = .next t ∧ t.out.tickDirty = false ∧
      t.dt = (if s.dt = 0 then 0 else s.dt - 1) ∧ t.st = (if s.st = 0 then 0 else s.st - 1) ∧
      t.out.soundActive = decide (s.st ≠ 0) ∧
      t = { s with pending := rest, dt := t.dt, st := t.st, out := t.out }

/-- R275: a step changes dt only by `FX15` and st only by `FX18`; no step counts a timer down. -/
def Obligations.NoStepCountsTimersDown : Prop :=
  ∀ (s t : State), (s.pending = [] ∨ ∃ rest, s.pending = .step :: rest) → step s = .next t →
    (t.dt = s.dt ∨ ∃ x, decodeOp s.opcodeAt = .ok (.ldDtVx x) ∧ t.dt = s.getV x) ∧
    (t.st = s.st ∨ ∃ x, decodeOp s.opcodeAt = .ok (.ldStVx x) ∧ t.st = s.getV x)

/-! ### The whole machine: who writes and who reads each piece of state -/

/-- R260: no instruction ever aborts the run: every instruction, well formed or not, from every state, completes. -/
def Obligations.NoInstructionAborts : Prop := ∀ (i : Instr) (s : State), ∃ t, exec i s = .next t

/-- R24: I is written by `ANNN`, `FX1E` and `FX29` and by nothing else. -/
def Obligations.OnlyIndexInstructionsWriteI : Prop :=
  ∀ (i : Instr) (s t : State), exec i s = .next t →
    (∀ nnn, i ≠ .ldI nnn) → (∀ x, i ≠ .addI x) → (∀ x, i ≠ .ldF x) → t.i = s.i

/-- R27, R28: only `2NNN` and `00EE` change sp, only `2NNN` writes a stack entry, and never one in use. -/
def Obligations.OnlyCallAndRetTouchStack : Prop :=
  ∀ (i : Instr) (s t : State), exec i s = .next t →
    ((∀ nnn, i ≠ .call nnn) → t.stack = s.stack) ∧
    ((∀ nnn, i ≠ .call nnn) → i ≠ .ret → t.sp = s.sp) ∧
    (∀ j : Nat, j < s.sp.val → t.stack[j]? = s.stack[j]?)

/-- The display is written only by `00E0` and `DXYN` (10_state.md R35), the key-wait latch only by `FX0A` (R31), memory
only by `FX33` and `FX55` (20_memory.md R50, R55), the draw count only by `CXNN` (60_exceptions.md R283; the count is the
model's, log 4); the keys (45_keys.md R237, R282), the parameters (R38), the ROM kept for RELOAD
(70_reset_and_hazards.md R300, R304) and the pending operations (the model's, log 1) by no instruction. -/
def Obligations.OnlyNamedInstructionsWriteDisplayLatchMemory : Prop :=
  ∀ (i : Instr) (s t : State), exec i s = .next t →
    (i ≠ .cls → (∀ x y n, i ≠ .drw x y n) → t.fb = s.fb) ∧
    ((∀ x, i ≠ .ldVxK x) → t.kw = s.kw) ∧
    ((∀ x, i ≠ .ldB x) → (∀ x, i ≠ .storeRegs x) → ∀ a, t.peek a = s.peek a) ∧
    ((∀ x nn, i ≠ .rnd x nn) → t.draws = s.draws) ∧
    t.keys = s.keys ∧ t.cfg = s.cfg ∧ t.lastRom = s.lastRom ∧ t.pending = s.pending

/-- R261, R264, R265: an execution leaves the fault register alone or, with none recorded, records this instruction's
address and opcode under the one cause the instruction has. -/
def Obligations.EachInstructionRaisesOnlyItsCause : Prop :=
  ∀ (i : Instr) (s t : State), exec i s = .next t → t.fault = s.fault ∨
    (s.fault.code = .none ∧ t.fault.pc = s.pc0 ∧ t.fault.op = s.op ∧
      ((t.fault.code = .stackOverflow ∧ t.fault.info = 16 ∧ s.sp.val = 16 ∧ ∃ nnn, i = .call nnn) ∨
       (t.fault.code = .stackUnderflow ∧ t.fault.info = 0 ∧ s.sp.val = 0 ∧ i = .ret) ∨
       (t.fault.code = .addrRange ∧ 0x0FFF < t.fault.info.toNat ∧
         ((∃ x y n, i = .drw x y n) ∨ (∃ x, i = .ldB x) ∨ (∃ x, i = .storeRegs x) ∨ ∃ x, i = .loadRegs x)) ∨
       (t.fault.code = .keyRange ∧ 0x0F < t.fault.info.toNat ∧ ((∃ x, i = .skp x) ∨ ∃ x, i = .sknp x))))

/-- R33: the fault register is invisible to programs: executing from two states that differ only in it gives two states
that differ only in it. -/
def Obligations.FaultRegisterIsInvisible : Prop :=
  ∀ (i : Instr) (s t : State) (f : FaultRecord), exec i s = .next t →
    ∃ g, exec i { s with fault := f } = .next { t with fault := g }

/-- R30: no instruction reads st: changing it before an instruction changes nothing but st after it. -/
def Obligations.SoundTimerIsNeverRead : Prop :=
  ∀ (i : Instr) (s t : State) (b : Byte), exec i s = .next t →
    ∃ c, exec i { s with st := b } = .next { t with st := c }

/-- R289, R121: at a self-jump every further step changes no state of the core. -/
def Obligations.SelfJumpChangesNothing : Prop :=
  ∀ (s : State) (n : Nat), s.AtSelfJump → s.pending = [] → s.out.loadStatus = .ok →
    ∃ t : State, Sys2Proof.core.run n s = .next t ∧ t.AtSelfJump ∧
      t = { s with pc0 := t.pc0, op := t.op, out := t.out }
end

