-- ==== Sys2Proof/Laws/State.lean ====
section
/-! SUPPORT. The small lemmas of State: what each named operation leaves unchanged, field by field, so that no later
proof unfolds a record update; and reading a register after a write. -/

namespace Sys2Proof.Machine

open Sys2Proof

/-! ### setV -/

@[simp] theorem State.setV_i (s : State) (r : Reg) (b : Byte) : (s.setV r b).i = s.i := rfl
@[simp] theorem State.setV_pc (s : State) (r : Reg) (b : Byte) : (s.setV r b).pc = s.pc := rfl
@[simp] theorem State.setV_sp (s : State) (r : Reg) (b : Byte) : (s.setV r b).sp = s.sp := rfl
@[simp] theorem State.setV_stack (s : State) (r : Reg) (b : Byte) : (s.setV r b).stack = s.stack := rfl
@[simp] theorem State.setV_dt (s : State) (r : Reg) (b : Byte) : (s.setV r b).dt = s.dt := rfl
@[simp] theorem State.setV_st (s : State) (r : Reg) (b : Byte) : (s.setV r b).st = s.st := rfl
@[simp] theorem State.setV_mem (s : State) (r : Reg) (b : Byte) : (s.setV r b).mem = s.mem := rfl
@[simp] theorem State.setV_fb (s : State) (r : Reg) (b : Byte) : (s.setV r b).fb = s.fb := rfl
@[simp] theorem State.setV_kw (s : State) (r : Reg) (b : Byte) : (s.setV r b).kw = s.kw := rfl
@[simp] theorem State.setV_fault (s : State) (r : Reg) (b : Byte) : (s.setV r b).fault = s.fault := rfl
@[simp] theorem State.setV_lastRom (s : State) (r : Reg) (b : Byte) : (s.setV r b).lastRom = s.lastRom := rfl
@[simp] theorem State.setV_pc0 (s : State) (r : Reg) (b : Byte) : (s.setV r b).pc0 = s.pc0 := rfl
@[simp] theorem State.setV_op (s : State) (r : Reg) (b : Byte) : (s.setV r b).op = s.op := rfl
@[simp] theorem State.setV_out (s : State) (r : Reg) (b : Byte) : (s.setV r b).out = s.out := rfl
@[simp] theorem State.setV_keys (s : State) (r : Reg) (b : Byte) : (s.setV r b).keys = s.keys := rfl
@[simp] theorem State.setV_draws (s : State) (r : Reg) (b : Byte) : (s.setV r b).draws = s.draws := rfl
@[simp] theorem State.setV_pending (s : State) (r : Reg) (b : Byte) : (s.setV r b).pending = s.pending := rfl
@[simp] theorem State.setV_cfg (s : State) (r : Reg) (b : Byte) : (s.setV r b).cfg = s.cfg := rfl

/-! ### markDirty -/

@[simp] theorem State.markDirty_v (s : State) : s.markDirty.v = s.v := rfl
@[simp] theorem State.markDirty_i (s : State) : s.markDirty.i = s.i := rfl
@[simp] theorem State.markDirty_pc (s : State) : s.markDirty.pc = s.pc := rfl
@[simp] theorem State.markDirty_sp (s : State) : s.markDirty.sp = s.sp := rfl
@[simp] theorem State.markDirty_stack (s : State) : s.markDirty.stack = s.stack := rfl
@[simp] theorem State.markDirty_dt (s : State) : s.markDirty.dt = s.dt := rfl
@[simp] theorem State.markDirty_st (s : State) : s.markDirty.st = s.st := rfl
@[simp] theorem State.markDirty_mem (s : State) : s.markDirty.mem = s.mem := rfl
@[simp] theorem State.markDirty_fb (s : State) : s.markDirty.fb = s.fb := rfl
@[simp] theorem State.markDirty_kw (s : State) : s.markDirty.kw = s.kw := rfl
@[simp] theorem State.markDirty_fault (s : State) : s.markDirty.fault = s.fault := rfl
@[simp] theorem State.markDirty_lastRom (s : State) : s.markDirty.lastRom = s.lastRom := rfl
@[simp] theorem State.markDirty_pc0 (s : State) : s.markDirty.pc0 = s.pc0 := rfl
@[simp] theorem State.markDirty_op (s : State) : s.markDirty.op = s.op := rfl
@[simp] theorem State.markDirty_keys (s : State) : s.markDirty.keys = s.keys := rfl
@[simp] theorem State.markDirty_draws (s : State) : s.markDirty.draws = s.draws := rfl
@[simp] theorem State.markDirty_pending (s : State) : s.markDirty.pending = s.pending := rfl
@[simp] theorem State.markDirty_cfg (s : State) : s.markDirty.cfg = s.cfg := rfl

/-! ### markUnimp -/

@[simp] theorem State.markUnimp_v (s : State) : s.markUnimp.v = s.v := rfl
@[simp] theorem State.markUnimp_i (s : State) : s.markUnimp.i = s.i := rfl
@[simp] theorem State.markUnimp_pc (s : State) : s.markUnimp.pc = s.pc := rfl
@[simp] theorem State.markUnimp_sp (s : State) : s.markUnimp.sp = s.sp := rfl
@[simp] theorem State.markUnimp_stack (s : State) : s.markUnimp.stack = s.stack := rfl
@[simp] theorem State.markUnimp_dt (s : State) : s.markUnimp.dt = s.dt := rfl
@[simp] theorem State.markUnimp_st (s : State) : s.markUnimp.st = s.st := rfl
@[simp] theorem State.markUnimp_mem (s : State) : s.markUnimp.mem = s.mem := rfl
@[simp] theorem State.markUnimp_fb (s : State) : s.markUnimp.fb = s.fb := rfl
@[simp] theorem State.markUnimp_kw (s : State) : s.markUnimp.kw = s.kw := rfl
@[simp] theorem State.markUnimp_fault (s : State) : s.markUnimp.fault = s.fault := rfl
@[simp] theorem State.markUnimp_lastRom (s : State) : s.markUnimp.lastRom = s.lastRom := rfl
@[simp] theorem State.markUnimp_pc0 (s : State) : s.markUnimp.pc0 = s.pc0 := rfl
@[simp] theorem State.markUnimp_op (s : State) : s.markUnimp.op = s.op := rfl
@[simp] theorem State.markUnimp_keys (s : State) : s.markUnimp.keys = s.keys := rfl
@[simp] theorem State.markUnimp_draws (s : State) : s.markUnimp.draws = s.draws := rfl
@[simp] theorem State.markUnimp_pending (s : State) : s.markUnimp.pending = s.pending := rfl
@[simp] theorem State.markUnimp_cfg (s : State) : s.markUnimp.cfg = s.cfg := rfl

/-! ### jump -/

@[simp] theorem State.jump_v (s : State) (a : Word) : (s.jump a).v = s.v := rfl
@[simp] theorem State.jump_i (s : State) (a : Word) : (s.jump a).i = s.i := rfl
@[simp] theorem State.jump_sp (s : State) (a : Word) : (s.jump a).sp = s.sp := rfl
@[simp] theorem State.jump_stack (s : State) (a : Word) : (s.jump a).stack = s.stack := rfl
@[simp] theorem State.jump_dt (s : State) (a : Word) : (s.jump a).dt = s.dt := rfl
@[simp] theorem State.jump_st (s : State) (a : Word) : (s.jump a).st = s.st := rfl
@[simp] theorem State.jump_mem (s : State) (a : Word) : (s.jump a).mem = s.mem := rfl
@[simp] theorem State.jump_fb (s : State) (a : Word) : (s.jump a).fb = s.fb := rfl
@[simp] theorem State.jump_kw (s : State) (a : Word) : (s.jump a).kw = s.kw := rfl
@[simp] theorem State.jump_fault (s : State) (a : Word) : (s.jump a).fault = s.fault := rfl
@[simp] theorem State.jump_lastRom (s : State) (a : Word) : (s.jump a).lastRom = s.lastRom := rfl
@[simp] theorem State.jump_pc0 (s : State) (a : Word) : (s.jump a).pc0 = s.pc0 := rfl
@[simp] theorem State.jump_op (s : State) (a : Word) : (s.jump a).op = s.op := rfl
@[simp] theorem State.jump_out (s : State) (a : Word) : (s.jump a).out = s.out := rfl
@[simp] theorem State.jump_keys (s : State) (a : Word) : (s.jump a).keys = s.keys := rfl
@[simp] theorem State.jump_draws (s : State) (a : Word) : (s.jump a).draws = s.draws := rfl
@[simp] theorem State.jump_pending (s : State) (a : Word) : (s.jump a).pending = s.pending := rfl
@[simp] theorem State.jump_cfg (s : State) (a : Word) : (s.jump a).cfg = s.cfg := rfl

/-! ### rollBack -/

@[simp] theorem State.rollBack_v (s : State) : s.rollBack.v = s.v := rfl
@[simp] theorem State.rollBack_i (s : State) : s.rollBack.i = s.i := rfl
@[simp] theorem State.rollBack_sp (s : State) : s.rollBack.sp = s.sp := rfl
@[simp] theorem State.rollBack_stack (s : State) : s.rollBack.stack = s.stack := rfl
@[simp] theorem State.rollBack_dt (s : State) : s.rollBack.dt = s.dt := rfl
@[simp] theorem State.rollBack_st (s : State) : s.rollBack.st = s.st := rfl
@[simp] theorem State.rollBack_mem (s : State) : s.rollBack.mem = s.mem := rfl
@[simp] theorem State.rollBack_fb (s : State) : s.rollBack.fb = s.fb := rfl
@[simp] theorem State.rollBack_kw (s : State) : s.rollBack.kw = s.kw := rfl
@[simp] theorem State.rollBack_fault (s : State) : s.rollBack.fault = s.fault := rfl
@[simp] theorem State.rollBack_lastRom (s : State) : s.rollBack.lastRom = s.lastRom := rfl
@[simp] theorem State.rollBack_pc0 (s : State) : s.rollBack.pc0 = s.pc0 := rfl
@[simp] theorem State.rollBack_op (s : State) : s.rollBack.op = s.op := rfl
@[simp] theorem State.rollBack_out (s : State) : s.rollBack.out = s.out := rfl
@[simp] theorem State.rollBack_keys (s : State) : s.rollBack.keys = s.keys := rfl
@[simp] theorem State.rollBack_draws (s : State) : s.rollBack.draws = s.draws := rfl
@[simp] theorem State.rollBack_pending (s : State) : s.rollBack.pending = s.pending := rfl
@[simp] theorem State.rollBack_cfg (s : State) : s.rollBack.cfg = s.cfg := rfl

/-! ### gatherDirty -/

@[simp] theorem State.gatherDirty_v (s : State) : s.gatherDirty.v = s.v := rfl
@[simp] theorem State.gatherDirty_i (s : State) : s.gatherDirty.i = s.i := rfl
@[simp] theorem State.gatherDirty_pc (s : State) : s.gatherDirty.pc = s.pc := rfl
@[simp] theorem State.gatherDirty_sp (s : State) : s.gatherDirty.sp = s.sp := rfl
@[simp] theorem State.gatherDirty_stack (s : State) : s.gatherDirty.stack = s.stack := rfl
@[simp] theorem State.gatherDirty_dt (s : State) : s.gatherDirty.dt = s.dt := rfl
@[simp] theorem State.gatherDirty_st (s : State) : s.gatherDirty.st = s.st := rfl
@[simp] theorem State.gatherDirty_mem (s : State) : s.gatherDirty.mem = s.mem := rfl
@[simp] theorem State.gatherDirty_fb (s : State) : s.gatherDirty.fb = s.fb := rfl
@[simp] theorem State.gatherDirty_kw (s : State) : s.gatherDirty.kw = s.kw := rfl
@[simp] theorem State.gatherDirty_fault (s : State) : s.gatherDirty.fault = s.fault := rfl
@[simp] theorem State.gatherDirty_lastRom (s : State) : s.gatherDirty.lastRom = s.lastRom := rfl
@[simp] theorem State.gatherDirty_pc0 (s : State) : s.gatherDirty.pc0 = s.pc0 := rfl
@[simp] theorem State.gatherDirty_op (s : State) : s.gatherDirty.op = s.op := rfl
@[simp] theorem State.gatherDirty_keys (s : State) : s.gatherDirty.keys = s.keys := rfl
@[simp] theorem State.gatherDirty_draws (s : State) : s.gatherDirty.draws = s.draws := rfl
@[simp] theorem State.gatherDirty_pending (s : State) : s.gatherDirty.pending = s.pending := rfl
@[simp] theorem State.gatherDirty_cfg (s : State) : s.gatherDirty.cfg = s.cfg := rfl

/-! ### endTick -/

@[simp] theorem State.endTick_v (s : State) : s.endTick.v = s.v := rfl
@[simp] theorem State.endTick_i (s : State) : s.endTick.i = s.i := rfl
@[simp] theorem State.endTick_pc (s : State) : s.endTick.pc = s.pc := rfl
@[simp] theorem State.endTick_sp (s : State) : s.endTick.sp = s.sp := rfl
@[simp] theorem State.endTick_stack (s : State) : s.endTick.stack = s.stack := rfl
@[simp] theorem State.endTick_mem (s : State) : s.endTick.mem = s.mem := rfl
@[simp] theorem State.endTick_fb (s : State) : s.endTick.fb = s.fb := rfl
@[simp] theorem State.endTick_kw (s : State) : s.endTick.kw = s.kw := rfl
@[simp] theorem State.endTick_fault (s : State) : s.endTick.fault = s.fault := rfl
@[simp] theorem State.endTick_lastRom (s : State) : s.endTick.lastRom = s.lastRom := rfl
@[simp] theorem State.endTick_pc0 (s : State) : s.endTick.pc0 = s.pc0 := rfl
@[simp] theorem State.endTick_op (s : State) : s.endTick.op = s.op := rfl
@[simp] theorem State.endTick_keys (s : State) : s.endTick.keys = s.keys := rfl
@[simp] theorem State.endTick_draws (s : State) : s.endTick.draws = s.draws := rfl
@[simp] theorem State.endTick_pending (s : State) : s.endTick.pending = s.pending := rfl
@[simp] theorem State.endTick_cfg (s : State) : s.endTick.cfg = s.cfg := rfl

/-! ### raise -/

@[simp] theorem State.raise_v (s : State) (c : FaultCode) (info : Word) : (s.raise c info).v = s.v := by
  unfold State.raise; split <;> rfl
@[simp] theorem State.raise_i (s : State) (c : FaultCode) (info : Word) : (s.raise c info).i = s.i := by
  unfold State.raise; split <;> rfl
@[simp] theorem State.raise_pc (s : State) (c : FaultCode) (info : Word) : (s.raise c info).pc = s.pc := by
  unfold State.raise; split <;> rfl
@[simp] theorem State.raise_sp (s : State) (c : FaultCode) (info : Word) : (s.raise c info).sp = s.sp := by
  unfold State.raise; split <;> rfl
@[simp] theorem State.raise_stack (s : State) (c : FaultCode) (info : Word) : (s.raise c info).stack = s.stack := by
  unfold State.raise; split <;> rfl
@[simp] theorem State.raise_dt (s : State) (c : FaultCode) (info : Word) : (s.raise c info).dt = s.dt := by
  unfold State.raise; split <;> rfl
@[simp] theorem State.raise_st (s : State) (c : FaultCode) (info : Word) : (s.raise c info).st = s.st := by
  unfold State.raise; split <;> rfl
@[simp] theorem State.raise_mem (s : State) (c : FaultCode) (info : Word) : (s.raise c info).mem = s.mem := by
  unfold State.raise; split <;> rfl
@[simp] theorem State.raise_fb (s : State) (c : FaultCode) (info : Word) : (s.raise c info).fb = s.fb := by
  unfold State.raise; split <;> rfl
@[simp] theorem State.raise_kw (s : State) (c : FaultCode) (info : Word) : (s.raise c info).kw = s.kw := by
  unfold State.raise; split <;> rfl
@[simp] theorem State.raise_lastRom (s : State) (c : FaultCode) (info : Word) : (s.raise c info).lastRom = s.lastRom := by
  unfold State.raise; split <;> rfl
@[simp] theorem State.raise_pc0 (s : State) (c : FaultCode) (info : Word) : (s.raise c info).pc0 = s.pc0 := by
  unfold State.raise; split <;> rfl
@[simp] theorem State.raise_op (s : State) (c : FaultCode) (info : Word) : (s.raise c info).op = s.op := by
  unfold State.raise; split <;> rfl
@[simp] theorem State.raise_out (s : State) (c : FaultCode) (info : Word) : (s.raise c info).out = s.out := by
  unfold State.raise; split <;> rfl
@[simp] theorem State.raise_keys (s : State) (c : FaultCode) (info : Word) : (s.raise c info).keys = s.keys := by
  unfold State.raise; split <;> rfl
@[simp] theorem State.raise_draws (s : State) (c : FaultCode) (info : Word) : (s.raise c info).draws = s.draws := by
  unfold State.raise; split <;> rfl
@[simp] theorem State.raise_pending (s : State) (c : FaultCode) (info : Word) : (s.raise c info).pending = s.pending := by
  unfold State.raise; split <;> rfl
@[simp] theorem State.raise_cfg (s : State) (c : FaultCode) (info : Word) : (s.raise c info).cfg = s.cfg := by
  unfold State.raise; split <;> rfl

/-! ### checkAddr -/

@[simp] theorem State.checkAddr_v (s : State) (a : Word) : (s.checkAddr a).v = s.v := by
  unfold State.checkAddr; split <;> simp
@[simp] theorem State.checkAddr_i (s : State) (a : Word) : (s.checkAddr a).i = s.i := by
  unfold State.checkAddr; split <;> simp
@[simp] theorem State.checkAddr_pc (s : State) (a : Word) : (s.checkAddr a).pc = s.pc := by
  unfold State.checkAddr; split <;> simp
@[simp] theorem State.checkAddr_sp (s : State) (a : Word) : (s.checkAddr a).sp = s.sp := by
  unfold State.checkAddr; split <;> simp
@[simp] theorem State.checkAddr_stack (s : State) (a : Word) : (s.checkAddr a).stack = s.stack := by
  unfold State.checkAddr; split <;> simp
@[simp] theorem State.checkAddr_dt (s : State) (a : Word) : (s.checkAddr a).dt = s.dt := by
  unfold State.checkAddr; split <;> simp
@[simp] theorem State.checkAddr_st (s : State) (a : Word) : (s.checkAddr a).st = s.st := by
  unfold State.checkAddr; split <;> simp
@[simp] theorem State.checkAddr_mem (s : State) (a : Word) : (s.checkAddr a).mem = s.mem := by
  unfold State.checkAddr; split <;> simp
@[simp] theorem State.checkAddr_fb (s : State) (a : Word) : (s.checkAddr a).fb = s.fb := by
  unfold State.checkAddr; split <;> simp
@[simp] theorem State.checkAddr_kw (s : State) (a : Word) : (s.checkAddr a).kw = s.kw := by
  unfold State.checkAddr; split <;> simp
@[simp] theorem State.checkAddr_lastRom (s : State) (a : Word) : (s.checkAddr a).lastRom = s.lastRom := by
  unfold State.checkAddr; split <;> simp
@[simp] theorem State.checkAddr_pc0 (s : State) (a : Word) : (s.checkAddr a).pc0 = s.pc0 := by
  unfold State.checkAddr; split <;> simp
@[simp] theorem State.checkAddr_op (s : State) (a : Word) : (s.checkAddr a).op = s.op := by
  unfold State.checkAddr; split <;> simp
@[simp] theorem State.checkAddr_out (s : State) (a : Word) : (s.checkAddr a).out = s.out := by
  unfold State.checkAddr; split <;> simp
@[simp] theorem State.checkAddr_keys (s : State) (a : Word) : (s.checkAddr a).keys = s.keys := by
  unfold State.checkAddr; split <;> simp
@[simp] theorem State.checkAddr_draws (s : State) (a : Word) : (s.checkAddr a).draws = s.draws := by
  unfold State.checkAddr; split <;> simp
@[simp] theorem State.checkAddr_pending (s : State) (a : Word) : (s.checkAddr a).pending = s.pending := by
  unfold State.checkAddr; split <;> simp
@[simp] theorem State.checkAddr_cfg (s : State) (a : Word) : (s.checkAddr a).cfg = s.cfg := by
  unfold State.checkAddr; split <;> simp

/-! ### memWrite -/

@[simp] theorem State.memWrite_v (s : State) (a : Word) (b : Byte) : (s.memWrite a b).v = s.v := by
  unfold State.memWrite; split <;> simp
@[simp] theorem State.memWrite_i (s : State) (a : Word) (b : Byte) : (s.memWrite a b).i = s.i := by
  unfold State.memWrite; split <;> simp
@[simp] theorem State.memWrite_pc (s : State) (a : Word) (b : Byte) : (s.memWrite a b).pc = s.pc := by
  unfold State.memWrite; split <;> simp
@[simp] theorem State.memWrite_sp (s : State) (a : Word) (b : Byte) : (s.memWrite a b).sp = s.sp := by
  unfold State.memWrite; split <;> simp
@[simp] theorem State.memWrite_stack (s : State) (a : Word) (b : Byte) : (s.memWrite a b).stack = s.stack := by
  unfold State.memWrite; split <;> simp
@[simp] theorem State.memWrite_dt (s : State) (a : Word) (b : Byte) : (s.memWrite a b).dt = s.dt := by
  unfold State.memWrite; split <;> simp
@[simp] theorem State.memWrite_st (s : State) (a : Word) (b : Byte) : (s.memWrite a b).st = s.st := by
  unfold State.memWrite; split <;> simp
@[simp] theorem State.memWrite_fb (s : State) (a : Word) (b : Byte) : (s.memWrite a b).fb = s.fb := by
  unfold State.memWrite; split <;> simp
@[simp] theorem State.memWrite_kw (s : State) (a : Word) (b : Byte) : (s.memWrite a b).kw = s.kw := by
  unfold State.memWrite; split <;> simp
@[simp] theorem State.memWrite_lastRom (s : State) (a : Word) (b : Byte) : (s.memWrite a b).lastRom = s.lastRom := by
  unfold State.memWrite; split <;> simp
@[simp] theorem State.memWrite_pc0 (s : State) (a : Word) (b : Byte) : (s.memWrite a b).pc0 = s.pc0 := by
  unfold State.memWrite; split <;> simp
@[simp] theorem State.memWrite_op (s : State) (a : Word) (b : Byte) : (s.memWrite a b).op = s.op := by
  unfold State.memWrite; split <;> simp
@[simp] theorem State.memWrite_out (s : State) (a : Word) (b : Byte) : (s.memWrite a b).out = s.out := by
  unfold State.memWrite; split <;> simp
@[simp] theorem State.memWrite_keys (s : State) (a : Word) (b : Byte) : (s.memWrite a b).keys = s.keys := by
  unfold State.memWrite; split <;> simp
@[simp] theorem State.memWrite_draws (s : State) (a : Word) (b : Byte) : (s.memWrite a b).draws = s.draws := by
  unfold State.memWrite; split <;> simp
@[simp] theorem State.memWrite_pending (s : State) (a : Word) (b : Byte) : (s.memWrite a b).pending = s.pending := by
  unfold State.memWrite; split <;> simp
@[simp] theorem State.memWrite_cfg (s : State) (a : Word) (b : Byte) : (s.memWrite a b).cfg = s.cfg := by
  unfold State.memWrite; split <;> simp

/-! ### checkKey -/

@[simp] theorem State.checkKey_v (s : State) (b : Byte) : (s.checkKey b).v = s.v := by
  unfold State.checkKey; split <;> simp
@[simp] theorem State.checkKey_i (s : State) (b : Byte) : (s.checkKey b).i = s.i := by
  unfold State.checkKey; split <;> simp
@[simp] theorem State.checkKey_pc (s : State) (b : Byte) : (s.checkKey b).pc = s.pc := by
  unfold State.checkKey; split <;> simp
@[simp] theorem State.checkKey_sp (s : State) (b : Byte) : (s.checkKey b).sp = s.sp := by
  unfold State.checkKey; split <;> simp
@[simp] theorem State.checkKey_stack (s : State) (b : Byte) : (s.checkKey b).stack = s.stack := by
  unfold State.checkKey; split <;> simp
@[simp] theorem State.checkKey_dt (s : State) (b : Byte) : (s.checkKey b).dt = s.dt := by
  unfold State.checkKey; split <;> simp
@[simp] theorem State.checkKey_st (s : State) (b : Byte) : (s.checkKey b).st = s.st := by
  unfold State.checkKey; split <;> simp
@[simp] theorem State.checkKey_mem (s : State) (b : Byte) : (s.checkKey b).mem = s.mem := by
  unfold State.checkKey; split <;> simp
@[simp] theorem State.checkKey_fb (s : State) (b : Byte) : (s.checkKey b).fb = s.fb := by
  unfold State.checkKey; split <;> simp
@[simp] theorem State.checkKey_kw (s : State) (b : Byte) : (s.checkKey b).kw = s.kw := by
  unfold State.checkKey; split <;> simp
@[simp] theorem State.checkKey_lastRom (s : State) (b : Byte) : (s.checkKey b).lastRom = s.lastRom := by
  unfold State.checkKey; split <;> simp
@[simp] theorem State.checkKey_pc0 (s : State) (b : Byte) : (s.checkKey b).pc0 = s.pc0 := by
  unfold State.checkKey; split <;> simp
@[simp] theorem State.checkKey_op (s : State) (b : Byte) : (s.checkKey b).op = s.op := by
  unfold State.checkKey; split <;> simp
@[simp] theorem State.checkKey_out (s : State) (b : Byte) : (s.checkKey b).out = s.out := by
  unfold State.checkKey; split <;> simp
@[simp] theorem State.checkKey_keys (s : State) (b : Byte) : (s.checkKey b).keys = s.keys := by
  unfold State.checkKey; split <;> simp
@[simp] theorem State.checkKey_draws (s : State) (b : Byte) : (s.checkKey b).draws = s.draws := by
  unfold State.checkKey; split <;> simp
@[simp] theorem State.checkKey_pending (s : State) (b : Byte) : (s.checkKey b).pending = s.pending := by
  unfold State.checkKey; split <;> simp
@[simp] theorem State.checkKey_cfg (s : State) (b : Byte) : (s.checkKey b).cfg = s.cfg := by
  unfold State.checkKey; split <;> simp

/-! ### skipIf -/

@[simp] theorem State.skipIf_v (s : State) (c : Bool) : (s.skipIf c).v = s.v := by
  unfold State.skipIf; split <;> rfl
@[simp] theorem State.skipIf_i (s : State) (c : Bool) : (s.skipIf c).i = s.i := by
  unfold State.skipIf; split <;> rfl
@[simp] theorem State.skipIf_sp (s : State) (c : Bool) : (s.skipIf c).sp = s.sp := by
  unfold State.skipIf; split <;> rfl
@[simp] theorem State.skipIf_stack (s : State) (c : Bool) : (s.skipIf c).stack = s.stack := by
  unfold State.skipIf; split <;> rfl
@[simp] theorem State.skipIf_dt (s : State) (c : Bool) : (s.skipIf c).dt = s.dt := by
  unfold State.skipIf; split <;> rfl
@[simp] theorem State.skipIf_st (s : State) (c : Bool) : (s.skipIf c).st = s.st := by
  unfold State.skipIf; split <;> rfl
@[simp] theorem State.skipIf_mem (s : State) (c : Bool) : (s.skipIf c).mem = s.mem := by
  unfold State.skipIf; split <;> rfl
@[simp] theorem State.skipIf_fb (s : State) (c : Bool) : (s.skipIf c).fb = s.fb := by
  unfold State.skipIf; split <;> rfl
@[simp] theorem State.skipIf_kw (s : State) (c : Bool) : (s.skipIf c).kw = s.kw := by
  unfold State.skipIf; split <;> rfl
@[simp] theorem State.skipIf_fault (s : State) (c : Bool) : (s.skipIf c).fault = s.fault := by
  unfold State.skipIf; split <;> rfl
@[simp] theorem State.skipIf_lastRom (s : State) (c : Bool) : (s.skipIf c).lastRom = s.lastRom := by
  unfold State.skipIf; split <;> rfl
@[simp] theorem State.skipIf_pc0 (s : State) (c : Bool) : (s.skipIf c).pc0 = s.pc0 := by
  unfold State.skipIf; split <;> rfl
@[simp] theorem State.skipIf_op (s : State) (c : Bool) : (s.skipIf c).op = s.op := by
  unfold State.skipIf; split <;> rfl
@[simp] theorem State.skipIf_out (s : State) (c : Bool) : (s.skipIf c).out = s.out := by
  unfold State.skipIf; split <;> rfl
@[simp] theorem State.skipIf_keys (s : State) (c : Bool) : (s.skipIf c).keys = s.keys := by
  unfold State.skipIf; split <;> rfl
@[simp] theorem State.skipIf_draws (s : State) (c : Bool) : (s.skipIf c).draws = s.draws := by
  unfold State.skipIf; split <;> rfl
@[simp] theorem State.skipIf_pending (s : State) (c : Bool) : (s.skipIf c).pending = s.pending := by
  unfold State.skipIf; split <;> rfl
@[simp] theorem State.skipIf_cfg (s : State) (c : Bool) : (s.skipIf c).cfg = s.cfg := by
  unfold State.skipIf; split <;> rfl

/-! ### latchKey -/

@[simp] theorem State.latchKey_v (s : State) : s.latchKey.v = s.v := by
  unfold State.latchKey; split <;> rfl
@[simp] theorem State.latchKey_i (s : State) : s.latchKey.i = s.i := by
  unfold State.latchKey; split <;> rfl
@[simp] theorem State.latchKey_pc (s : State) : s.latchKey.pc = s.pc := by
  unfold State.latchKey; split <;> rfl
@[simp] theorem State.latchKey_sp (s : State) : s.latchKey.sp = s.sp := by
  unfold State.latchKey; split <;> rfl
@[simp] theorem State.latchKey_stack (s : State) : s.latchKey.stack = s.stack := by
  unfold State.latchKey; split <;> rfl
@[simp] theorem State.latchKey_dt (s : State) : s.latchKey.dt = s.dt := by
  unfold State.latchKey; split <;> rfl
@[simp] theorem State.latchKey_st (s : State) : s.latchKey.st = s.st := by
  unfold State.latchKey; split <;> rfl
@[simp] theorem State.latchKey_mem (s : State) : s.latchKey.mem = s.mem := by
  unfold State.latchKey; split <;> rfl
@[simp] theorem State.latchKey_fb (s : State) : s.latchKey.fb = s.fb := by
  unfold State.latchKey; split <;> rfl
@[simp] theorem State.latchKey_fault (s : State) : s.latchKey.fault = s.fault := by
  unfold State.latchKey; split <;> rfl
@[simp] theorem State.latchKey_lastRom (s : State) : s.latchKey.lastRom = s.lastRom := by
  unfold State.latchKey; split <;> rfl
@[simp] theorem State.latchKey_pc0 (s : State) : s.latchKey.pc0 = s.pc0 := by
  unfold State.latchKey; split <;> rfl
@[simp] theorem State.latchKey_op (s : State) : s.latchKey.op = s.op := by
  unfold State.latchKey; split <;> rfl
@[simp] theorem State.latchKey_out (s : State) : s.latchKey.out = s.out := by
  unfold State.latchKey; split <;> rfl
@[simp] theorem State.latchKey_keys (s : State) : s.latchKey.keys = s.keys := by
  unfold State.latchKey; split <;> rfl
@[simp] theorem State.latchKey_draws (s : State) : s.latchKey.draws = s.draws := by
  unfold State.latchKey; split <;> rfl
@[simp] theorem State.latchKey_pending (s : State) : s.latchKey.pending = s.pending := by
  unfold State.latchKey; split <;> rfl
@[simp] theorem State.latchKey_cfg (s : State) : s.latchKey.cfg = s.cfg := by
  unfold State.latchKey; split <;> rfl

/-! ### storeUpTo -/

@[simp] theorem State.storeUpTo_v (s : State) (k : Nat) : (s.storeUpTo k).v = s.v := by
  induction k with
  | zero => rfl
  | succ k ih => simp [State.storeUpTo, ih]
@[simp] theorem State.storeUpTo_i (s : State) (k : Nat) : (s.storeUpTo k).i = s.i := by
  induction k with
  | zero => rfl
  | succ k ih => simp [State.storeUpTo, ih]
@[simp] theorem State.storeUpTo_pc (s : State) (k : Nat) : (s.storeUpTo k).pc = s.pc := by
  induction k with
  | zero => rfl
  | succ k ih => simp [State.storeUpTo, ih]
@[simp] theorem State.storeUpTo_sp (s : State) (k : Nat) : (s.storeUpTo k).sp = s.sp := by
  induction k with
  | zero => rfl
  | succ k ih => simp [State.storeUpTo, ih]
@[simp] theorem State.storeUpTo_stack (s : State) (k : Nat) : (s.storeUpTo k).stack = s.stack := by
  induction k with
  | zero => rfl
  | succ k ih => simp [State.storeUpTo, ih]
@[simp] theorem State.storeUpTo_dt (s : State) (k : Nat) : (s.storeUpTo k).dt = s.dt := by
  induction k with
  | zero => rfl
  | succ k ih => simp [State.storeUpTo, ih]
@[simp] theorem State.storeUpTo_st (s : State) (k : Nat) : (s.storeUpTo k).st = s.st := by
  induction k with
  | zero => rfl
  | succ k ih => simp [State.storeUpTo, ih]
@[simp] theorem State.storeUpTo_fb (s : State) (k : Nat) : (s.storeUpTo k).fb = s.fb := by
  induction k with
  | zero => rfl
  | succ k ih => simp [State.storeUpTo, ih]
@[simp] theorem State.storeUpTo_kw (s : State) (k : Nat) : (s.storeUpTo k).kw = s.kw := by
  induction k with
  | zero => rfl
  | succ k ih => simp [State.storeUpTo, ih]
@[simp] theorem State.storeUpTo_lastRom (s : State) (k : Nat) : (s.storeUpTo k).lastRom = s.lastRom := by
  induction k with
  | zero => rfl
  | succ k ih => simp [State.storeUpTo, ih]
@[simp] theorem State.storeUpTo_pc0 (s : State) (k : Nat) : (s.storeUpTo k).pc0 = s.pc0 := by
  induction k with
  | zero => rfl
  | succ k ih => simp [State.storeUpTo, ih]
@[simp] theorem State.storeUpTo_op (s : State) (k : Nat) : (s.storeUpTo k).op = s.op := by
  induction k with
  | zero => rfl
  | succ k ih => simp [State.storeUpTo, ih]
@[simp] theorem State.storeUpTo_out (s : State) (k : Nat) : (s.storeUpTo k).out = s.out := by
  induction k with
  | zero => rfl
  | succ k ih => simp [State.storeUpTo, ih]
@[simp] theorem State.storeUpTo_keys (s : State) (k : Nat) : (s.storeUpTo k).keys = s.keys := by
  induction k with
  | zero => rfl
  | succ k ih => simp [State.storeUpTo, ih]
@[simp] theorem State.storeUpTo_draws (s : State) (k : Nat) : (s.storeUpTo k).draws = s.draws := by
  induction k with
  | zero => rfl
  | succ k ih => simp [State.storeUpTo, ih]
@[simp] theorem State.storeUpTo_pending (s : State) (k : Nat) : (s.storeUpTo k).pending = s.pending := by
  induction k with
  | zero => rfl
  | succ k ih => simp [State.storeUpTo, ih]
@[simp] theorem State.storeUpTo_cfg (s : State) (k : Nat) : (s.storeUpTo k).cfg = s.cfg := by
  induction k with
  | zero => rfl
  | succ k ih => simp [State.storeUpTo, ih]

/-! ### loadUpTo -/

@[simp] theorem State.loadUpTo_i (s : State) (k : Nat) : (s.loadUpTo k).i = s.i := by
  induction k with
  | zero => rfl
  | succ k ih => simp [State.loadUpTo, ih]
@[simp] theorem State.loadUpTo_pc (s : State) (k : Nat) : (s.loadUpTo k).pc = s.pc := by
  induction k with
  | zero => rfl
  | succ k ih => simp [State.loadUpTo, ih]
@[simp] theorem State.loadUpTo_sp (s : State) (k : Nat) : (s.loadUpTo k).sp = s.sp := by
  induction k with
  | zero => rfl
  | succ k ih => simp [State.loadUpTo, ih]
@[simp] theorem State.loadUpTo_stack (s : State) (k : Nat) : (s.loadUpTo k).stack = s.stack := by
  induction k with
  | zero => rfl
  | succ k ih => simp [State.loadUpTo, ih]
@[simp] theorem State.loadUpTo_dt (s : State) (k : Nat) : (s.loadUpTo k).dt = s.dt := by
  induction k with
  | zero => rfl
  | succ k ih => simp [State.loadUpTo, ih]
@[simp] theorem State.loadUpTo_st (s : State) (k : Nat) : (s.loadUpTo k).st = s.st := by
  induction k with
  | zero => rfl
  | succ k ih => simp [State.loadUpTo, ih]
@[simp] theorem State.loadUpTo_mem (s : State) (k : Nat) : (s.loadUpTo k).mem = s.mem := by
  induction k with
  | zero => rfl
  | succ k ih => simp [State.loadUpTo, ih]
@[simp] theorem State.loadUpTo_fb (s : State) (k : Nat) : (s.loadUpTo k).fb = s.fb := by
  induction k with
  | zero => rfl
  | succ k ih => simp [State.loadUpTo, ih]
@[simp] theorem State.loadUpTo_kw (s : State) (k : Nat) : (s.loadUpTo k).kw = s.kw := by
  induction k with
  | zero => rfl
  | succ k ih => simp [State.loadUpTo, ih]
@[simp] theorem State.loadUpTo_lastRom (s : State) (k : Nat) : (s.loadUpTo k).lastRom = s.lastRom := by
  induction k with
  | zero => rfl
  | succ k ih => simp [State.loadUpTo, ih]
@[simp] theorem State.loadUpTo_pc0 (s : State) (k : Nat) : (s.loadUpTo k).pc0 = s.pc0 := by
  induction k with
  | zero => rfl
  | succ k ih => simp [State.loadUpTo, ih]
@[simp] theorem State.loadUpTo_op (s : State) (k : Nat) : (s.loadUpTo k).op = s.op := by
  induction k with
  | zero => rfl
  | succ k ih => simp [State.loadUpTo, ih]
@[simp] theorem State.loadUpTo_out (s : State) (k : Nat) : (s.loadUpTo k).out = s.out := by
  induction k with
  | zero => rfl
  | succ k ih => simp [State.loadUpTo, ih]
@[simp] theorem State.loadUpTo_keys (s : State) (k : Nat) : (s.loadUpTo k).keys = s.keys := by
  induction k with
  | zero => rfl
  | succ k ih => simp [State.loadUpTo, ih]
@[simp] theorem State.loadUpTo_draws (s : State) (k : Nat) : (s.loadUpTo k).draws = s.draws := by
  induction k with
  | zero => rfl
  | succ k ih => simp [State.loadUpTo, ih]
@[simp] theorem State.loadUpTo_pending (s : State) (k : Nat) : (s.loadUpTo k).pending = s.pending := by
  induction k with
  | zero => rfl
  | succ k ih => simp [State.loadUpTo, ih]
@[simp] theorem State.loadUpTo_cfg (s : State) (k : Nat) : (s.loadUpTo k).cfg = s.cfg := by
  induction k with
  | zero => rfl
  | succ k ih => simp [State.loadUpTo, ih]

/-! ### checkRows -/

@[simp] theorem State.checkRows_v (s : State) (k : Nat) : (s.checkRows k).v = s.v := by
  induction k with
  | zero => rfl
  | succ k ih => simp [State.checkRows, ih]
@[simp] theorem State.checkRows_i (s : State) (k : Nat) : (s.checkRows k).i = s.i := by
  induction k with
  | zero => rfl
  | succ k ih => simp [State.checkRows, ih]
@[simp] theorem State.checkRows_pc (s : State) (k : Nat) : (s.checkRows k).pc = s.pc := by
  induction k with
  | zero => rfl
  | succ k ih => simp [State.checkRows, ih]
@[simp] theorem State.checkRows_sp (s : State) (k : Nat) : (s.checkRows k).sp = s.sp := by
  induction k with
  | zero => rfl
  | succ k ih => simp [State.checkRows, ih]
@[simp] theorem State.checkRows_stack (s : State) (k : Nat) : (s.checkRows k).stack = s.stack := by
  induction k with
  | zero => rfl
  | succ k ih => simp [State.checkRows, ih]
@[simp] theorem State.checkRows_dt (s : State) (k : Nat) : (s.checkRows k).dt = s.dt := by
  induction k with
  | zero => rfl
  | succ k ih => simp [State.checkRows, ih]
@[simp] theorem State.checkRows_st (s : State) (k : Nat) : (s.checkRows k).st = s.st := by
  induction k with
  | zero => rfl
  | succ k ih => simp [State.checkRows, ih]
@[simp] theorem State.checkRows_mem (s : State) (k : Nat) : (s.checkRows k).mem = s.mem := by
  induction k with
  | zero => rfl
  | succ k ih => simp [State.checkRows, ih]
@[simp] theorem State.checkRows_fb (s : State) (k : Nat) : (s.checkRows k).fb = s.fb := by
  induction k with
  | zero => rfl
  | succ k ih => simp [State.checkRows, ih]
@[simp] theorem State.checkRows_kw (s : State) (k : Nat) : (s.checkRows k).kw = s.kw := by
  induction k with
  | zero => rfl
  | succ k ih => simp [State.checkRows, ih]
@[simp] theorem State.checkRows_lastRom (s : State) (k : Nat) : (s.checkRows k).lastRom = s.lastRom := by
  induction k with
  | zero => rfl
  | succ k ih => simp [State.checkRows, ih]
@[simp] theorem State.checkRows_pc0 (s : State) (k : Nat) : (s.checkRows k).pc0 = s.pc0 := by
  induction k with
  | zero => rfl
  | succ k ih => simp [State.checkRows, ih]
@[simp] theorem State.checkRows_op (s : State) (k : Nat) : (s.checkRows k).op = s.op := by
  induction k with
  | zero => rfl
  | succ k ih => simp [State.checkRows, ih]
@[simp] theorem State.checkRows_out (s : State) (k : Nat) : (s.checkRows k).out = s.out := by
  induction k with
  | zero => rfl
  | succ k ih => simp [State.checkRows, ih]
@[simp] theorem State.checkRows_keys (s : State) (k : Nat) : (s.checkRows k).keys = s.keys := by
  induction k with
  | zero => rfl
  | succ k ih => simp [State.checkRows, ih]
@[simp] theorem State.checkRows_draws (s : State) (k : Nat) : (s.checkRows k).draws = s.draws := by
  induction k with
  | zero => rfl
  | succ k ih => simp [State.checkRows, ih]
@[simp] theorem State.checkRows_pending (s : State) (k : Nat) : (s.checkRows k).pending = s.pending := by
  induction k with
  | zero => rfl
  | succ k ih => simp [State.checkRows, ih]
@[simp] theorem State.checkRows_cfg (s : State) (k : Nat) : (s.checkRows k).cfg = s.cfg := by
  induction k with
  | zero => rfl
  | succ k ih => simp [State.checkRows, ih]

/-! ### callTo -/

@[simp] theorem State.callTo_v (s : State) (a : Word) : (s.callTo a).v = s.v := by
  unfold State.callTo; split <;> simp
@[simp] theorem State.callTo_i (s : State) (a : Word) : (s.callTo a).i = s.i := by
  unfold State.callTo; split <;> simp
@[simp] theorem State.callTo_dt (s : State) (a : Word) : (s.callTo a).dt = s.dt := by
  unfold State.callTo; split <;> simp
@[simp] theorem State.callTo_st (s : State) (a : Word) : (s.callTo a).st = s.st := by
  unfold State.callTo; split <;> simp
@[simp] theorem State.callTo_mem (s : State) (a : Word) : (s.callTo a).mem = s.mem := by
  unfold State.callTo; split <;> simp
@[simp] theorem State.callTo_fb (s : State) (a : Word) : (s.callTo a).fb = s.fb := by
  unfold State.callTo; split <;> simp
@[simp] theorem State.callTo_kw (s : State) (a : Word) : (s.callTo a).kw = s.kw := by
  unfold State.callTo; split <;> simp
@[simp] theorem State.callTo_lastRom (s : State) (a : Word) : (s.callTo a).lastRom = s.lastRom := by
  unfold State.callTo; split <;> simp
@[simp] theorem State.callTo_pc0 (s : State) (a : Word) : (s.callTo a).pc0 = s.pc0 := by
  unfold State.callTo; split <;> simp
@[simp] theorem State.callTo_op (s : State) (a : Word) : (s.callTo a).op = s.op := by
  unfold State.callTo; split <;> simp
@[simp] theorem State.callTo_out (s : State) (a : Word) : (s.callTo a).out = s.out := by
  unfold State.callTo; split <;> simp
@[simp] theorem State.callTo_keys (s : State) (a : Word) : (s.callTo a).keys = s.keys := by
  unfold State.callTo; split <;> simp
@[simp] theorem State.callTo_draws (s : State) (a : Word) : (s.callTo a).draws = s.draws := by
  unfold State.callTo; split <;> simp
@[simp] theorem State.callTo_pending (s : State) (a : Word) : (s.callTo a).pending = s.pending := by
  unfold State.callTo; split <;> simp
@[simp] theorem State.callTo_cfg (s : State) (a : Word) : (s.callTo a).cfg = s.cfg := by
  unfold State.callTo; split <;> simp

/-! ### returnFromCall -/

@[simp] theorem State.returnFromCall_v (s : State) : s.returnFromCall.v = s.v := by
  unfold State.returnFromCall; split <;> simp
@[simp] theorem State.returnFromCall_i (s : State) : s.returnFromCall.i = s.i := by
  unfold State.returnFromCall; split <;> simp
@[simp] theorem State.returnFromCall_stack (s : State) : s.returnFromCall.stack = s.stack := by
  unfold State.returnFromCall; split <;> simp
@[simp] theorem State.returnFromCall_dt (s : State) : s.returnFromCall.dt = s.dt := by
  unfold State.returnFromCall; split <;> simp
@[simp] theorem State.returnFromCall_st (s : State) : s.returnFromCall.st = s.st := by
  unfold State.returnFromCall; split <;> simp
@[simp] theorem State.returnFromCall_mem (s : State) : s.returnFromCall.mem = s.mem := by
  unfold State.returnFromCall; split <;> simp
@[simp] theorem State.returnFromCall_fb (s : State) : s.returnFromCall.fb = s.fb := by
  unfold State.returnFromCall; split <;> simp
@[simp] theorem State.returnFromCall_kw (s : State) : s.returnFromCall.kw = s.kw := by
  unfold State.returnFromCall; split <;> simp
@[simp] theorem State.returnFromCall_lastRom (s : State) : s.returnFromCall.lastRom = s.lastRom := by
  unfold State.returnFromCall; split <;> simp
@[simp] theorem State.returnFromCall_pc0 (s : State) : s.returnFromCall.pc0 = s.pc0 := by
  unfold State.returnFromCall; split <;> simp
@[simp] theorem State.returnFromCall_op (s : State) : s.returnFromCall.op = s.op := by
  unfold State.returnFromCall; split <;> simp
@[simp] theorem State.returnFromCall_out (s : State) : s.returnFromCall.out = s.out := by
  unfold State.returnFromCall; split <;> simp
@[simp] theorem State.returnFromCall_keys (s : State) : s.returnFromCall.keys = s.keys := by
  unfold State.returnFromCall; split <;> simp
@[simp] theorem State.returnFromCall_draws (s : State) : s.returnFromCall.draws = s.draws := by
  unfold State.returnFromCall; split <;> simp
@[simp] theorem State.returnFromCall_pending (s : State) : s.returnFromCall.pending = s.pending := by
  unfold State.returnFromCall; split <;> simp
@[simp] theorem State.returnFromCall_cfg (s : State) : s.returnFromCall.cfg = s.cfg := by
  unfold State.returnFromCall; split <;> simp

/-! ### What an operation does write -/

@[simp] theorem State.jump_pc (s : State) (a : Word) : (s.jump a).pc = a := rfl

@[simp] theorem State.rollBack_pc (s : State) : s.rollBack.pc = s.pc - 2 := rfl

@[simp] theorem State.skipIf_pc (s : State) (c : Bool) : (s.skipIf c).pc = if c then s.pc + 2 else s.pc := by
  unfold State.skipIf; split <;> rfl

@[simp] theorem State.raise_fault (s : State) (c : FaultCode) (info : Word) :
    (s.raise c info).fault = s.recordOf c (some info) := by
  unfold State.raise State.recordOf; split <;> rfl

@[simp] theorem State.markDirty_dirty (s : State) : s.markDirty.out.dirty = true := rfl

/-- Reading a register after a write (R15, R21). -/
theorem State.getV_setV (s : State) (r q : Reg) (b : Byte) :
    (s.setV r b).getV q = if r = q then b else s.getV q := by
  simp [State.getV, State.setV, Vector.getElem_set, Fin.ext_iff]

@[simp] theorem State.getV_setV_same (s : State) (r : Reg) (b : Byte) : (s.setV r b).getV r = b := by
  simp [State.getV_setV]

theorem State.getV_setV_other (s : State) {r q : Reg} (b : Byte) (h : r ≠ q) :
    (s.setV r b).getV q = s.getV q := by
  simp [State.getV_setV, h]

/-- `getV` reads only the register file. -/
theorem State.getV_congr {s t : State} (h : t.v = s.v) (r : Reg) : t.getV r = s.getV r := by
  simp [State.getV, h]

/-- `peek` reads only memory and the parameters. -/
theorem State.peek_congr {s t : State} (hm : t.mem = s.mem) (hc : t.cfg = s.cfg) (a : Word) :
    t.peek a = s.peek a := by
  simp [State.peek, hm, hc]

/-- `indexed` reads only I. -/
theorem State.indexed_congr {s t : State} (h : t.i = s.i) (k : Nat) : t.indexed k = s.indexed k := by
  simp [State.indexed, h]

/-- `opcodeAt` reads only pc, memory and the parameters. -/
theorem State.opcodeAt_congr {s t : State} (hp : t.pc = s.pc) (hm : t.mem = s.mem) (hc : t.cfg = s.cfg) :
    t.opcodeAt = s.opcodeAt := by
  simp [State.opcodeAt, State.peek_congr hm hc, hp]

end Sys2Proof.Machine
end

