-- ==== Sys2Proof/Laws/Memory.lean ====
section
/-! SUPPORT. The laws of memory: a read after a write, and that every memory operation keeps the canonical form. -/

namespace Sys2Proof.Machine

open Sys2Proof

/-- Memory with nothing listed is canonical. -/
theorem Memory.wf_nil (c : Config) : Memory.wf c [] := by simp [Memory.wf]

/-- Below every listed address nothing is found. -/
theorem Memory.find_none_of_lt {m : Memory} {a : Nat} (h : ∀ e ∈ m, a < e.1) : Memory.find m a = none := by
  induction m with
  | nil => rfl
  | cons e m ih =>
    have h1 := h e (by simp)
    simp only [Memory.find]
    rw [if_neg (by omega), ih (fun e he => h e (by simp [he]))]

theorem Memory.find_put {m : Memory} (hm : m.Pairwise (fun p q => p.1 < q.1)) (a : Nat) (b : Byte) (a' : Nat) :
    Memory.find (Memory.put m a b) a' = if a = a' then some b else Memory.find m a' := by
  induction m with
  | nil => simp [Memory.put, Memory.find]
  | cons e m ih =>
    obtain ⟨k, d⟩ := e
    rw [List.pairwise_cons] at hm
    simp only [Memory.put]
    split
    · simp [Memory.find]
    · split
      · next h => subst h; simp only [Memory.find]; split <;> rfl
      · simp only [Memory.find, ih hm.2]
        split
        · next h => rw [if_neg (by omega)]
        · rfl

theorem Memory.find_drop {m : Memory} (hm : m.Pairwise (fun p q => p.1 < q.1)) (a a' : Nat) :
    Memory.find (Memory.drop m a) a' = if a = a' then none else Memory.find m a' := by
  induction m with
  | nil => simp [Memory.drop, Memory.find]
  | cons e m ih =>
    obtain ⟨k, d⟩ := e
    rw [List.pairwise_cons] at hm
    simp only [Memory.drop]
    split
    · next h =>
      subst h
      simp only [Memory.find]
      split
      · next h => subst h; exact Memory.find_none_of_lt hm.1
      · rfl
    · simp only [Memory.find, ih hm.2]
      split
      · rw [if_neg (by omega)]
      · rfl

/-- A read after a write: the byte written at that address, and the byte read before at every other. -/
theorem Memory.read_write {c : Config} {m : Memory} (hm : Memory.wf c m) (a : Nat) (b : Byte) (a' : Nat) :
    Memory.read c (Memory.write c m a b) a' = if a = a' then b else Memory.read c m a' := by
  unfold Memory.read Memory.write
  split
  · next h =>
    rw [Memory.find_drop hm.1]
    split
    · next h' => subst h'; simp [h]
    · rfl
  · rw [Memory.find_put hm.1]
    split <;> rfl

theorem Memory.mem_put {m : Memory} {a : Nat} {b : Byte} {e : Host.Cell} (h : e ∈ Memory.put m a b) :
    e = (a, b) ∨ e ∈ m := by
  induction m with
  | nil => simp [Memory.put] at h; exact .inl h
  | cons f m ih =>
    simp only [Memory.put] at h
    split at h
    · simpa using h
    · split at h
      · simp only [List.mem_cons] at h ⊢; tauto
      · simp only [List.mem_cons] at h ⊢
        rcases h with h | h
        · exact .inr (.inl h)
        · rcases ih h with h | h <;> tauto

theorem Memory.mem_drop {m : Memory} {a : Nat} {e : Host.Cell} (h : e ∈ Memory.drop m a) : e ∈ m := by
  induction m with
  | nil => simp [Memory.drop] at h
  | cons f m ih =>
    simp only [Memory.drop] at h
    split at h
    · simp [h]
    · simp only [List.mem_cons] at h ⊢
      rcases h with h | h
      · exact .inl h
      · exact .inr (ih h)

theorem Memory.pairwise_put {m : Memory} (hm : m.Pairwise (fun p q => p.1 < q.1)) (a : Nat) (b : Byte) :
    (Memory.put m a b).Pairwise (fun p q => p.1 < q.1) := by
  induction m with
  | nil => simp [Memory.put]
  | cons f m ih =>
    have hm' := hm
    rw [List.pairwise_cons] at hm
    simp only [Memory.put]
    split
    · next h =>
      refine List.pairwise_cons.2 ⟨fun e he => ?_, hm'⟩
      rcases List.mem_cons.1 he with rfl | he
      · exact h
      · exact lt_trans h (hm.1 e he)
    · split
      · next h => exact List.pairwise_cons.2 ⟨fun e he => by simpa [h] using hm.1 e he, hm.2⟩
      · refine List.pairwise_cons.2 ⟨fun e he => ?_, ih hm.2⟩
        rcases Memory.mem_put he with rfl | he
        · show f.1 < a; omega
        · exact hm.1 e he

theorem Memory.pairwise_drop {m : Memory} (hm : m.Pairwise (fun p q => p.1 < q.1)) (a : Nat) :
    (Memory.drop m a).Pairwise (fun p q => p.1 < q.1) := by
  induction m with
  | nil => simp [Memory.drop]
  | cons f m ih =>
    rw [List.pairwise_cons] at hm
    simp only [Memory.drop]
    split
    · exact hm.2
    · exact List.pairwise_cons.2 ⟨fun e he => hm.1 e (Memory.mem_drop he), ih hm.2⟩

/-- A write inside the memory keeps the canonical form. -/
theorem Memory.wf_write {c : Config} {m : Memory} (hm : Memory.wf c m) {a : Nat} (ha : a < memSize) (b : Byte) :
    Memory.wf c (Memory.write c m a b) := by
  unfold Memory.write
  split
  · exact ⟨Memory.pairwise_drop hm.1 a, fun e he => hm.2 e (Memory.mem_drop he)⟩
  · next h =>
    refine ⟨Memory.pairwise_put hm.1 a b, fun e he => ?_⟩
    rcases Memory.mem_put he with rfl | he
    · exact ⟨ha, h⟩
    · exact hm.2 e he

/-- The loader's copy keeps the canonical form, where it stays inside the memory. -/
theorem Memory.wf_writeAll {c : Config} {m : Memory} (hm : Memory.wf c m) {a : Nat} {bs : List Byte}
    (ha : a + bs.length ≤ memSize) : Memory.wf c (Memory.writeAll c m a bs) := by
  induction bs generalizing m a with
  | nil => exact hm
  | cons b bs ih =>
    simp only [List.length_cons] at ha
    exact ih (Memory.wf_write hm (by omega) b) (by omega)

/-- What the loader's copy leaves at each address. -/
theorem Memory.read_writeAll {c : Config} {m : Memory} (hm : Memory.wf c m) {a : Nat} {bs : List Byte}
    (ha : a + bs.length ≤ memSize) (a' : Nat) :
    Memory.read c (Memory.writeAll c m a bs) a' =
      if h : a ≤ a' ∧ a' < a + bs.length then bs[a' - a] else Memory.read c m a' := by
  induction bs generalizing m a with
  | nil => rw [dif_neg (by simp)]; rfl
  | cons b bs ih =>
    simp only [List.length_cons] at ha
    rw [Memory.writeAll, ih (Memory.wf_write hm (by omega) b) (by omega), Memory.read_write hm]
    by_cases h : a + 1 ≤ a' ∧ a' < a + 1 + bs.length
    · have h2 : a ≤ a' ∧ a' < a + (b :: bs).length := by simp only [List.length_cons]; omega
      rw [dif_pos h, dif_pos h2]
      have : a' - a = (a' - (a + 1)) + 1 := by omega
      simp only [this, List.getElem_cons_succ]
    · rw [dif_neg h]
      by_cases h3 : a = a'
      · subst h3
        simp
      · rw [if_neg h3, dif_neg (by simp only [List.length_cons]; omega)]

/-- A memory write of the core: the byte read after it (R52, R53). -/
theorem State.peek_memWrite {s : State} (hs : s.MemCanonical) (a : Word) (b : Byte) (a' : Word) :
    (s.memWrite a b).peek a' = if a = a' ∧ InRange a then b else s.peek a' := by
  unfold State.memWrite
  split
  · next h =>
    simp only [State.peek, Memory.read_write hs, ← BitVec.toNat_inj]
    split <;> split <;> simp_all
  · next h =>
    rw [if_neg (fun h' => h h'.2)]
    exact State.peek_congr (by simp) (by simp) a'

/-- Every write of the core keeps the canonical form. -/
theorem State.memWrite_canonical {s : State} (hs : s.MemCanonical) (a : Word) (b : Byte) :
    (s.memWrite a b).MemCanonical := by
  unfold State.memWrite
  split
  · next h => exact Memory.wf_write hs h b
  · simpa [State.MemCanonical] using hs

/-- Placing a byte keeps the canonical form. -/
theorem State.placeByte_canonical {s : State} (hs : s.MemCanonical) (a : Word) (b : Byte) :
    (s.placeByte a b).MemCanonical := by
  unfold State.placeByte
  split
  · next h => exact Memory.wf_write hs h b
  · exact hs

/-- Placing an instruction keeps the canonical form. -/
theorem State.withFetchWord_canonical {s : State} (hs : s.MemCanonical) (nbits w : Nat) :
    (s.withFetchWord nbits w).MemCanonical :=
  State.placeByte_canonical (State.placeByte_canonical hs _ _) _ _

/-- A LOAD of a program that fits (R300, R301). -/
theorem State.load_fits (s : State) {rom : List Byte} (h : rom.length ≤ romMax) :
    s.load rom = { State.reset with
      lastRom := rom, mem := Memory.writeAll s.cfg [] romBase rom
      keys := s.keys, draws := s.draws, pending := s.pending, cfg := s.cfg } := by
  simp [State.load, romFits, h]

/-- A LOAD of a program that does not fit (R303). -/
theorem State.load_tooLarge (s : State) {rom : List Byte} (h : ¬ rom.length ≤ romMax) :
    s.load rom = { State.reset with
      lastRom := rom, out := { State.reset.out with loadStatus := .romTooLarge }
      keys := s.keys, draws := s.draws, pending := s.pending, cfg := s.cfg } := by
  simp [State.load, romFits, h]

/-- A LOAD leaves memory canonical, whatever was there before. -/
theorem State.load_canonical (s : State) (rom : List Byte) : (s.load rom).MemCanonical := by
  by_cases h : rom.length ≤ romMax
  · rw [State.load_fits s h]
    exact Memory.wf_writeAll (Memory.wf_nil _) (by simp only [romMax, romBase, memSize] at h ⊢; omega)
  · rw [State.load_tooLarge s h]
    exact Memory.wf_nil _

end Sys2Proof.Machine
end

