-- ==== Sys2Proof/Laws/Ops.lean ====
section
/-! SUPPORT. What each shared operation can do, said once: recording a fault, the fetch, the register ranges, the sprite
reads. -/

namespace Sys2Proof.Machine

open Sys2Proof

/-! ### Recording faults -/

/-- With a fault recorded nothing more is recorded (R262). -/
theorem State.recordOf_sticky {s : State} (h : s.fault.code ≠ .none) (c : FaultCode) (o : Option Word) :
    s.recordOf c o = s.fault := by
  cases o <;> simp [State.recordOf, h]

/-- `raise` either records this step's fault or changes nothing (R262). -/
theorem State.raise_eq (s : State) (c : FaultCode) (info : Word) :
    s.raise c info = { s with fault := s.recordOf c (some info) } := by
  unfold State.raise State.recordOf; split <;> rfl

/-- The whole effect of a memory access check (R52). -/
theorem State.checkAddr_eq (s : State) (a : Word) :
    s.checkAddr a = { s with fault := s.recordOf .addrRange (if InRange a then none else some a) } := by
  unfold State.checkAddr
  split
  · rfl
  · rw [State.raise_eq]

/-- The whole effect of a key check (R230). -/
theorem State.checkKey_eq (s : State) (v : Byte) :
    s.checkKey v = { s with fault := s.recordOf .keyRange (if v.toNat ≤ 15 then none else some (v.setWidth 16)) } := by
  unfold State.checkKey
  split
  · rfl
  · rw [State.raise_eq]

@[simp] theorem State.checkAddr_fault (s : State) (a : Word) :
    (s.checkAddr a).fault = s.recordOf .addrRange (if InRange a then none else some a) := by
  rw [State.checkAddr_eq]

@[simp] theorem State.memWrite_fault (s : State) (a : Word) (b : Byte) :
    (s.memWrite a b).fault = s.recordOf .addrRange (if InRange a then none else some a) := by
  unfold State.memWrite
  split
  · rfl
  · simp

/-- Two records in a row keep the first (R262, R264). -/
theorem State.recordOf_recordOf {s t : State} {c : FaultCode} (hc : c ≠ .none) {o o' : Option Word}
    (hf : t.fault = s.recordOf c o) (hp : t.pc0 = s.pc0) (ho : t.op = s.op) :
    t.recordOf c o' = s.recordOf c (o.or o') := by
  cases o with
  | none => cases o' <;> simp_all [State.recordOf]
  | some a =>
    simp only [Option.some_or]
    rw [State.recordOf_sticky (c := c) (o := o'), hf]
    rw [hf]
    unfold State.recordOf
    dsimp only
    split
    · exact hc
    · assumption

/-- A record over a state that differs in nothing the record reads. -/
theorem State.recordOf_congr {s t : State} (hf : t.fault = s.fault) (hp : t.pc0 = s.pc0) (ho : t.op = s.op)
    (c : FaultCode) (o : Option Word) : t.recordOf c o = s.recordOf c o := by
  cases o <;> simp [State.recordOf, hf, hp, ho]

/-! ### The fetch -/

/-- Everything the fetch does (R80 to R82). -/
theorem State.fetch_eq (s : State) :
    s.fetch = { s with
      pc0 := s.pc, op := s.opcodeAt, pc := s.pc + 2
      out := { s.out with dirty := false, unimp := false }
      fault := ({ s with pc0 := s.pc, op := s.opcodeAt } : State).recordOf .addrRange
        ((if InRange s.pc then none else some s.pc).or (if InRange (s.pc + 1) then none else some (s.pc + 1))) } := by
  simp only [State.fetch]
  rw [State.checkAddr_eq, State.checkAddr_eq]
  congr 1
  exact State.recordOf_recordOf (by decide) rfl rfl rfl

@[simp] theorem State.fetch_pc (s : State) : s.fetch.pc = s.pc + 2 := by simp [State.fetch_eq]
@[simp] theorem State.fetch_pc0 (s : State) : s.fetch.pc0 = s.pc := by simp [State.fetch_eq]
@[simp] theorem State.fetch_op (s : State) : s.fetch.op = s.opcodeAt := by simp [State.fetch_eq]
@[simp] theorem State.fetch_v (s : State) : s.fetch.v = s.v := by simp [State.fetch_eq]
@[simp] theorem State.fetch_i (s : State) : s.fetch.i = s.i := by simp [State.fetch_eq]
@[simp] theorem State.fetch_sp (s : State) : s.fetch.sp = s.sp := by simp [State.fetch_eq]
@[simp] theorem State.fetch_stack (s : State) : s.fetch.stack = s.stack := by simp [State.fetch_eq]
@[simp] theorem State.fetch_dt (s : State) : s.fetch.dt = s.dt := by simp [State.fetch_eq]
@[simp] theorem State.fetch_st (s : State) : s.fetch.st = s.st := by simp [State.fetch_eq]
@[simp] theorem State.fetch_mem (s : State) : s.fetch.mem = s.mem := by simp [State.fetch_eq]
@[simp] theorem State.fetch_fb (s : State) : s.fetch.fb = s.fb := by simp [State.fetch_eq]
@[simp] theorem State.fetch_kw (s : State) : s.fetch.kw = s.kw := by simp [State.fetch_eq]
@[simp] theorem State.fetch_lastRom (s : State) : s.fetch.lastRom = s.lastRom := by simp [State.fetch_eq]
@[simp] theorem State.fetch_out (s : State) : s.fetch.out = { s.out with dirty := false, unimp := false } := by
  simp [State.fetch_eq]
@[simp] theorem State.fetch_keys (s : State) : s.fetch.keys = s.keys := by simp [State.fetch_eq]
@[simp] theorem State.fetch_draws (s : State) : s.fetch.draws = s.draws := by simp [State.fetch_eq]
@[simp] theorem State.fetch_pending (s : State) : s.fetch.pending = s.pending := by simp [State.fetch_eq]
@[simp] theorem State.fetch_cfg (s : State) : s.fetch.cfg = s.cfg := by simp [State.fetch_eq]

/-- A fetch inside memory records no fault. -/
theorem State.fetch_inRange {s : State} (h : InRange s.pc) (h' : InRange (s.pc + 1)) :
    s.fetch = { s with
      pc0 := s.pc, op := s.opcodeAt, pc := s.pc + 2, out := { s.out with dirty := false, unimp := false } } := by
  rw [State.fetch_eq, if_pos h, if_pos h']
  rfl

/-! ### Ranges of bytes -/

/-- Two offsets below 65536 from I give the same address only when they are equal. -/
theorem State.indexed_inj {s : State} {j k : Nat} (hj : j < 65536) (hk : k < 65536) :
    s.indexed j = s.indexed k ↔ j = k := by
  constructor
  · intro h
    have h' := congrArg BitVec.toNat h
    simp only [State.indexed, BitVec.toNat_add, BitVec.toNat_ofNat] at h'
    omega
  · rintro rfl; rfl

theorem State.firstOutOfRange_succ (s : State) (k : Nat) :
    s.firstOutOfRange (k + 1) =
      (s.firstOutOfRange k).or (if InRange (s.indexed k) then none else some (s.indexed k)) := by
  simp only [State.firstOutOfRange, List.range_succ, List.map_append, List.find?_append, List.map_cons, List.map_nil]
  congr 1
  simp only [List.find?_cons, List.find?_nil]
  by_cases h : InRange (s.indexed k) <;> simp [h]

/-- The first out-of-range address depends only on I. -/
theorem State.firstOutOfRange_congr {s t : State} (h : t.i = s.i) (k : Nat) :
    t.firstOutOfRange k = s.firstOutOfRange k := by
  have : t.indexed = s.indexed := funext fun j => State.indexed_congr h j
  simp [State.firstOutOfRange, this]

/-- The faults of reading sprite rows (R102). -/
theorem State.checkRows_fault (s : State) (k : Nat) :
    (s.checkRows k).fault = s.recordOf .addrRange (s.firstOutOfRange k) := by
  induction k with
  | zero => rfl
  | succ k ih =>
    rw [State.checkRows, State.checkAddr_fault, State.firstOutOfRange_succ]
    exact State.recordOf_recordOf (by decide) ih (by simp) (by simp)

/-- Reading sprite rows changes nothing but the fault register. -/
theorem State.checkRows_eq (s : State) (k : Nat) :
    s.checkRows k = { s with fault := s.recordOf .addrRange (s.firstOutOfRange k) } := by
  induction k with
  | zero => rfl
  | succ k ih =>
    rw [State.checkRows, State.checkAddr_eq, State.firstOutOfRange_succ]
    rw [State.recordOf_recordOf (s := s) (by decide) (State.checkRows_fault s k) (by simp) (by simp), ih]

@[simp] theorem State.spriteRows_length (s : State) (k : Nat) : (s.spriteRows k).length = k := by
  induction k with
  | zero => rfl
  | succ k ih => simp [State.spriteRows, ih]

/-- Row `j` of a sprite is the byte at I + j (R101). -/
theorem State.spriteRows_getElem (s : State) (k j : Nat) (h : j < (s.spriteRows k).length) :
    (s.spriteRows k)[j] = s.peek (s.indexed j) := by
  induction k with
  | zero => simp [State.spriteRows] at h
  | succ k ih =>
    simp only [State.spriteRows, List.getElem_append, State.spriteRows_length]
    split
    · next hj => exact ih (by simpa using hj)
    · next hj =>
      simp only [State.spriteRows_length] at h
      have : j = k := by omega
      subst this
      simp

/-- The faults of storing a range of registers (R205). -/
theorem State.storeUpTo_fault (s : State) (k : Nat) :
    (s.storeUpTo k).fault = s.recordOf .addrRange (s.firstOutOfRange k) := by
  induction k with
  | zero => rfl
  | succ k ih =>
    rw [State.storeUpTo, State.memWrite_fault, State.firstOutOfRange_succ]
    exact State.recordOf_recordOf (by decide) ih (by simp) (by simp)

/-- Storing a range of registers keeps memory canonical. -/
theorem State.storeUpTo_canonical {s : State} (hs : s.MemCanonical) (k : Nat) : (s.storeUpTo k).MemCanonical := by
  induction k with
  | zero => exact hs
  | succ k ih => exact State.memWrite_canonical ih _ _

/-- Storing a range of registers touches no address outside the range (R205). -/
theorem State.peek_storeUpTo_other {s : State} (hs : s.MemCanonical) {k : Nat} {a : Word}
    (h : ∀ j, j < k → a ≠ s.indexed j) : (s.storeUpTo k).peek a = s.peek a := by
  induction k with
  | zero => rfl
  | succ k ih =>
    rw [State.storeUpTo, State.peek_memWrite (State.storeUpTo_canonical hs k),
      if_neg (fun h' => h k (by omega) h'.1.symm), ih (fun j hj => h j (by omega))]

/-- Storing a range of registers leaves register `j` at I + j (R205). -/
theorem State.peek_storeUpTo {s : State} (hs : s.MemCanonical) {k j : Nat} (hj : j < k) (hk : k ≤ 16)
    (hr : InRange (s.indexed j)) : (s.storeUpTo k).peek (s.indexed j) = s.getV (Fin.ofNat 16 j) := by
  induction k with
  | zero => omega
  | succ k ih =>
    rw [State.storeUpTo, State.peek_memWrite (State.storeUpTo_canonical hs k)]
    by_cases h : j = k
    · subst h; rw [if_pos ⟨rfl, hr⟩]
    · rw [if_neg, ih (by omega) (by omega)]
      rintro ⟨h', -⟩
      exact h ((State.indexed_inj (by omega) (by omega)).1 h').symm

/-- The faults of loading a range of registers (R206). -/
theorem State.loadUpTo_fault (s : State) (k : Nat) :
    (s.loadUpTo k).fault = s.recordOf .addrRange (s.firstOutOfRange k) := by
  induction k with
  | zero => rfl
  | succ k ih =>
    rw [State.loadUpTo, State.setV_fault, State.checkAddr_fault, State.firstOutOfRange_succ]
    exact State.recordOf_recordOf (by decide) ih (by simp) (by simp)

/-- What loading a range of registers leaves in each (R206). -/
theorem State.getV_loadUpTo (s : State) {k : Nat} (hk : k ≤ 16) (r : Reg) :
    (s.loadUpTo k).getV r = if r.val < k then s.peek (s.indexed r.val) else s.getV r := by
  induction k with
  | zero => simp [State.loadUpTo]
  | succ k ih =>
    rw [State.loadUpTo, State.getV_setV]
    have hv : (Fin.ofNat 16 k).val = k := by simp [Fin.ofNat]; omega
    by_cases h : r.val = k
    · have : Fin.ofNat 16 k = r := Fin.ext (by omega)
      rw [if_pos this, if_pos (by omega), h]
      exact State.peek_congr (by simp) (by simp) _
    · rw [if_neg (fun h' => h (by rw [← h', hv])),
        State.getV_congr (t := (s.loadUpTo k).checkAddr (s.indexed k)) (s := s.loadUpTo k) (by simp) r,
        ih (by omega)]
      by_cases h2 : r.val < k
      · rw [if_pos h2, if_pos (by omega)]
      · rw [if_neg h2, if_neg (by omega)]

/-- The whole effect of a memory write (R53). -/
theorem State.memWrite_eq (s : State) (a : Word) (b : Byte) :
    s.memWrite a b = { s with mem := (s.memWrite a b).mem, fault := (s.memWrite a b).fault } := by
  unfold State.memWrite
  split
  · rfl
  · rw [State.raise_eq]

/-- Storing a range of registers changes nothing but memory and the fault register (R205). -/
theorem State.storeUpTo_eq (s : State) (k : Nat) :
    s.storeUpTo k = { s with mem := (s.storeUpTo k).mem, fault := (s.storeUpTo k).fault } := by
  induction k with
  | zero => rfl
  | succ k ih => rw [State.storeUpTo, State.memWrite_eq, ih]

/-- Loading a range of registers changes nothing but the registers and the fault register (R206). -/
theorem State.loadUpTo_eq (s : State) (k : Nat) :
    s.loadUpTo k = { s with v := (s.loadUpTo k).v, fault := (s.loadUpTo k).fault } := by
  induction k with
  | zero => rfl
  | succ k ih => rw [State.loadUpTo, State.checkAddr_eq, ih]; rfl

end Sys2Proof.Machine
end

