-- ==== Sys2Proof/Laws/Display.lean ====
section
/-! SUPPORT. What drawing a sprite does to each pixel and when it collides: the loops of `DXYN` said without loops. -/

namespace Sys2Proof.Machine

open Sys2Proof

/-- XOR at one column changes that column's pixel and no other. -/
theorem Line.getLsbD_xorPixel (line : Line) {x : Nat} (hx : x < 64) (b : Bool) (p : Nat) :
    (Line.xorPixel line x b).getLsbD p = (line.getLsbD p ^^ (decide (p = x) && b)) := by
  unfold Line.xorPixel
  cases b with
  | false => simp
  | true =>
    have e : (decide (p < 64) && !decide (p < x) && decide (p - x = 0)) = decide (p = x) := by
      rw [Bool.eq_iff_iff]; simp; omega
    simp [BitVec.getLsbD_xor, BitVec.getLsbD_shiftLeft, BitVec.getLsbD_one, ← e]

/-- A run of a row's bits from column offset `j`: which pixels of the line change. -/
theorem drawBits_getLsbD (row : Byte) (x0 : Nat) (m j : Nat) (acc : Line × Bool) (p : Nat) :
    (drawBits row x0 (List.range' j m) acc).1.getLsbD p =
      (acc.1.getLsbD p ^^ (decide (x0 + j ≤ p ∧ p < x0 + j + m ∧ p < 64) && row.getLsbD (7 - (p - x0)))) := by
  induction m generalizing j acc with
  | zero => rw [decide_eq_false (by omega)]; simp [drawBits]
  | succ m ih =>
    rw [List.range'_succ, drawBits]
    split
    · have : ¬ (x0 + j ≤ p ∧ p < x0 + j + (m + 1) ∧ p < 64) := by omega
      rw [decide_eq_false this]; simp
    · rw [ih]
      simp only [plot]
      rw [Line.getLsbD_xorPixel _ (by omega), Bool.xor_assoc]
      congr 1
      by_cases h : p = x0 + j
      · subst h
        have h1 : ¬ (x0 + (j + 1) ≤ x0 + j ∧ x0 + j < x0 + (j + 1) + m ∧ x0 + j < 64) := by omega
        have h2 : x0 + j ≤ x0 + j ∧ x0 + j < x0 + j + (m + 1) ∧ x0 + j < 64 := by omega
        rw [decide_eq_false h1, decide_eq_true h2]
        simp
      · have h1 : (x0 + (j + 1) ≤ p ∧ p < x0 + (j + 1) + m ∧ p < 64) ↔
            (x0 + j ≤ p ∧ p < x0 + j + (m + 1) ∧ p < 64) := by omega
        simp [h1, h]

/-- A run of a row's bits collides when it did before, or a 1 bit meets a 1 pixel. -/
theorem drawBits_hit (row : Byte) (x0 : Nat) (m j : Nat) (acc : Line × Bool) :
    (drawBits row x0 (List.range' j m) acc).2 = true ↔
      acc.2 = true ∨ ∃ p, p < 64 ∧ x0 + j ≤ p ∧ p < x0 + j + m ∧ row.getLsbD (7 - (p - x0)) = true ∧
        acc.1.getLsbD p = true := by
  induction m generalizing j acc with
  | zero =>
    simp only [List.range'_zero, drawBits]
    constructor
    · exact .inl
    · rintro (h | ⟨p, h⟩)
      · exact h
      · omega
  | succ m ih =>
    rw [List.range'_succ, drawBits]
    split
    · constructor
      · exact .inl
      · rintro (h | ⟨p, h⟩)
        · exact h
        · omega
    · next hj =>
      rw [ih]
      simp only [plot, Bool.or_eq_true, Bool.and_eq_true]
      have hx : x0 + j < 64 := by omega
      constructor
      · rintro ((h | ⟨hb, hp⟩) | ⟨p, h1, h2, h3, h4, h5⟩)
        · exact .inl h
        · exact .inr ⟨x0 + j, hx, le_rfl, by omega, by simpa using hb, hp⟩
        · rw [Line.getLsbD_xorPixel _ hx, decide_eq_false (by omega)] at h5
          exact .inr ⟨p, h1, by omega, by omega, h4, by simpa using h5⟩
      · rintro (h | ⟨p, h1, h2, h3, h4, h5⟩)
        · exact .inl (.inl h)
        · by_cases h : p = x0 + j
          · subst h
            exact .inl (.inr ⟨by simpa using h4, h5⟩)
          · refine .inr ⟨p, h1, by omega, by omega, h4, ?_⟩
            rw [Line.getLsbD_xorPixel _ hx, decide_eq_false (by omega)]
            simpa using h5

theorem columns_eq : columns = List.range' 0 8 := rfl

/-- The pixels a sprite leaves: each is the old one XOR the sprite's bit there (R101 to R103). -/
theorem drawRows_pixel (x0 : Nat) (rows : List Byte) (y : Nat) (acc : Screen × Bool) (px py : Nat)
    (hx : px < 64) :
    (drawRows x0 y rows acc).1.pixel px py =
      (acc.1.pixel px py ^^
        (decide (x0 ≤ px ∧ px < x0 + 8 ∧ y ≤ py ∧ py < y + rows.length ∧ py < 32) &&
          ((rows[py - y]?).getD 0).getLsbD (7 - (px - x0)))) := by
  induction rows generalizing y acc with
  | nil => rw [decide_eq_false (by simp only [List.length_nil]; omega)]; simp [drawRows]
  | cons row rows ih =>
    rw [drawRows]
    split
    · have : ¬ (x0 ≤ px ∧ px < x0 + 8 ∧ y ≤ py ∧ py < y + (row :: rows).length ∧ py < 32) := by omega
      rw [decide_eq_false this]; simp
    · next hy =>
      rw [ih]
      have hp : Screen.pixel (acc.1.set y (drawBits row x0 columns (acc.1[y], acc.2)).1) px py =
          (acc.1.pixel px py ^^
            (decide (x0 ≤ px ∧ px < x0 + 8 ∧ py = y) && row.getLsbD (7 - (px - x0)))) := by
        unfold Screen.pixel
        by_cases h32 : py < 32
        · rw [dif_pos h32, dif_pos h32, Vector.getElem_set]
          by_cases h : y = py
          · subst h
            rw [if_pos rfl, columns_eq, drawBits_getLsbD]
            have : (x0 + 0 ≤ px ∧ px < x0 + 0 + 8 ∧ px < 64) ↔ (x0 ≤ px ∧ px < x0 + 8 ∧ y = y) := by omega
            simp only [this]
          · rw [if_neg h, decide_eq_false (by omega)]
            simp
        · rw [dif_neg h32, dif_neg h32, decide_eq_false (by omega)]
          simp
      rw [hp, Bool.xor_assoc]
      congr 1
      by_cases h : py = y
      · subst h
        have h1 : ¬ (x0 ≤ px ∧ px < x0 + 8 ∧ py + 1 ≤ py ∧ py < py + 1 + rows.length ∧ py < 32) := by omega
        have h2 : decide (x0 ≤ px ∧ px < x0 + 8 ∧ py = py) =
            decide (x0 ≤ px ∧ px < x0 + 8 ∧ py ≤ py ∧ py < py + (row :: rows).length ∧ py < 32) := by
          have h3 : py < py + (row :: rows).length := by simp
          have h4 : py < 32 := by omega
          simp [h4]
        rw [decide_eq_false h1, h2]
        simp
      · have h1 : (x0 ≤ px ∧ px < x0 + 8 ∧ y + 1 ≤ py ∧ py < y + 1 + rows.length ∧ py < 32) ↔
            (x0 ≤ px ∧ px < x0 + 8 ∧ y ≤ py ∧ py < y + (row :: rows).length ∧ py < 32) := by
          simp only [List.length_cons]; omega
        rw [decide_eq_false (p := x0 ≤ px ∧ px < x0 + 8 ∧ py = y) (by omega)]
        simp only [h1, Bool.false_and, Bool.false_bne]
        by_cases h2 : y ≤ py
        · have : py - y = (py - (y + 1)) + 1 := by omega
          rw [this, List.getElem?_cons_succ]
        · rw [decide_eq_false (p := x0 ≤ px ∧ px < x0 + 8 ∧ y ≤ py ∧ py < y + (row :: rows).length ∧ py < 32)
            (by omega)]
          simp

/-- A sprite collides when it did before, or one of its 1 bits inside the display meets a 1 pixel (R102). -/
theorem drawRows_hit (x0 : Nat) (rows : List Byte) (y : Nat) (acc : Screen × Bool) :
    (drawRows x0 y rows acc).2 = true ↔
      acc.2 = true ∨ ∃ px py, px < 64 ∧ py < 32 ∧ x0 ≤ px ∧ px < x0 + 8 ∧ y ≤ py ∧ py < y + rows.length ∧
        ((rows[py - y]?).getD 0).getLsbD (7 - (px - x0)) = true ∧ acc.1.pixel px py = true := by
  induction rows generalizing y acc with
  | nil =>
    simp only [drawRows, List.length_nil]
    constructor
    · exact .inl
    · rintro (h | ⟨px, py, h⟩)
      · exact h
      · omega
  | cons row rows ih =>
    rw [drawRows]
    split
    · constructor
      · exact .inl
      · rintro (h | ⟨px, py, h⟩)
        · exact h
        · omega
    · next hy =>
      rw [ih, columns_eq]
      simp only [drawBits_hit]
      have other : ∀ px py l, py ≠ y → Screen.pixel (acc.1.set y l) px py = acc.1.pixel px py := by
        intro px py l h
        unfold Screen.pixel
        split
        · rw [Vector.getElem_set, if_neg (by omega)]
        · rfl
      constructor
      · rintro ((h | ⟨p, h1, h2, h3, h4, h5⟩) | ⟨px, py, h1, h2, h3, h4, h5, h6, h7, h8⟩)
        · exact .inl h
        · refine .inr ⟨p, y, h1, by omega, by omega, by omega, le_rfl, by simp, by simpa using h4, ?_⟩
          unfold Screen.pixel
          rw [dif_pos (by omega)]
          exact h5
        · refine .inr ⟨px, py, h1, h2, h3, h4, by omega, by simp only [List.length_cons]; omega, ?_, ?_⟩
          · have : py - y = (py - (y + 1)) + 1 := by omega
            rw [this, List.getElem?_cons_succ]
            exact h7
          · rw [← h8, other _ _ _ (by omega)]
      · rintro (h | ⟨px, py, h1, h2, h3, h4, h5, h6, h7, h8⟩)
        · exact .inl (.inl h)
        · by_cases h : py = y
          · subst h
            refine .inl (.inr ⟨px, h1, by omega, by omega, by simpa using h7, ?_⟩)
            unfold Screen.pixel at h8
            rwa [dif_pos h2] at h8
          · refine .inr ⟨px, py, h1, h2, h3, h4, by omega, by simp only [List.length_cons] at h6; omega, ?_, ?_⟩
            · have : py - y = (py - (y + 1)) + 1 := by omega
              rw [this, List.getElem?_cons_succ] at h7
              exact h7
            · rw [other _ _ _ h, h8]

/-- A row of the sprite at I, by index, with 0 past its end. -/
theorem State.spriteRows_getD (s : State) (n k : Nat) (h : k < n) :
    ((s.spriteRows n)[k]?).getD 0 = s.peek (s.indexed k) := by
  rw [List.getElem?_eq_getElem (by simpa using h), Option.getD_some, State.spriteRows_getElem]

end Sys2Proof.Machine
end

