-- ==== Sys2Proof/Laws/Encoding.lean ====
section
/-! SUPPORT. The fields of each layout, and a layout masked: the small lemmas of the encoder (spec 30_encoding.md
R72, R73). -/

namespace Sys2Proof

/-! ### Fields of a layout -/

@[simp] theorem opField_layoutNnn (p : Digit) (nnn : Addr12) : opField (layoutNnn p nnn) = p := by
  rw [opField, layoutNnn, BitVec.extractLsb'_append_eq_left]

@[simp] theorem nnnField_layoutNnn (p : Digit) (nnn : Addr12) : nnnField (layoutNnn p nnn) = nnn := by
  rw [nnnField, layoutNnn, BitVec.extractLsb'_append_eq_right]

@[simp] theorem opField_layoutXnn (p : Digit) (x : Reg) (nn : Byte) : opField (layoutXnn p x nn) = p := by
  rw [opField, layoutXnn, BitVec.extractLsb'_append_eq_of_le (by decide), BitVec.extractLsb'_append_eq_left]

@[simp] theorem xField_layoutXnn (p : Digit) (x : Reg) (nn : Byte) : xField (layoutXnn p x nn) = x := by
  rw [xField, layoutXnn, BitVec.extractLsb'_append_eq_of_le (by decide), BitVec.extractLsb'_append_eq_right, regDigit]

@[simp] theorem nnField_layoutXnn (p : Digit) (x : Reg) (nn : Byte) : nnField (layoutXnn p x nn) = nn := by
  rw [nnField, layoutXnn, BitVec.extractLsb'_append_eq_right]

@[simp] theorem opField_layoutXyn (p : Digit) (x y : Reg) (n : Digit) : opField (layoutXyn p x y n) = p := by
  rw [opField, layoutXyn, BitVec.extractLsb'_append_eq_of_le (by decide),
    BitVec.extractLsb'_append_eq_of_le (by decide), BitVec.extractLsb'_append_eq_left]

@[simp] theorem xField_layoutXyn (p : Digit) (x y : Reg) (n : Digit) : xField (layoutXyn p x y n) = x := by
  rw [xField, layoutXyn, BitVec.extractLsb'_append_eq_of_le (by decide),
    BitVec.extractLsb'_append_eq_of_le (by decide), BitVec.extractLsb'_append_eq_right, regDigit]

@[simp] theorem yField_layoutXyn (p : Digit) (x y : Reg) (n : Digit) : yField (layoutXyn p x y n) = y := by
  rw [yField, layoutXyn, BitVec.extractLsb'_append_eq_of_le (by decide), BitVec.extractLsb'_append_eq_right, regDigit]

@[simp] theorem nField_layoutXyn (p : Digit) (x y : Reg) (n : Digit) : nField (layoutXyn p x y n) = n := by
  rw [nField, layoutXyn, BitVec.extractLsb'_append_eq_right]

/-! ### An opcode is its fields -/

theorem layoutNnn_fields (op : Word) : layoutNnn (opField op) (nnnField op) = op := by
  rw [layoutNnn, opField, nnnField, BitVec.extractLsb'_append_extractLsb'_eq_extractLsb' (by decide)]
  exact BitVec.extractLsb'_eq_self

theorem layoutXnn_fields (op : Word) : layoutXnn (opField op) (xField op) (nnField op) = op := by
  have h : regDigit (xField op) = op.extractLsb' 8 4 := rfl
  rw [layoutXnn, h, opField, nnField, BitVec.extractLsb'_append_extractLsb'_eq_extractLsb' (by decide),
    BitVec.extractLsb'_append_extractLsb'_eq_extractLsb' (by decide)]
  exact BitVec.extractLsb'_eq_self

theorem layoutXyn_fields (op : Word) : layoutXyn (opField op) (xField op) (yField op) (nField op) = op := by
  have h : regDigit (xField op) = op.extractLsb' 8 4 := rfl
  have h' : regDigit (yField op) = op.extractLsb' 4 4 := rfl
  rw [layoutXyn, h, h', opField, nField, BitVec.extractLsb'_append_extractLsb'_eq_extractLsb' (by decide),
    BitVec.extractLsb'_append_extractLsb'_eq_extractLsb' (by decide),
    BitVec.extractLsb'_append_extractLsb'_eq_extractLsb' (by decide)]
  exact BitVec.extractLsb'_eq_self

/-! ### A layout masked by its row's mask -/

@[simp] theorem digit_and_ones (p : Digit) : p &&& 15#4 = p := by revert p; decide

@[simp] theorem byte_and_ones (b : Byte) : b &&& 255#8 = b := by revert b; decide

theorem layoutNnn_mask (p : Digit) (nnn : Addr12) : layoutNnn p nnn &&& 0xF000 = layoutNnn p 0 := by
  have h : (0xF000 : Word) = (0xF#4 ++ 0#12) := rfl
  rw [h, layoutNnn, layoutNnn, BitVec.and_append]
  simp

theorem layoutXnn_mask (p : Digit) (x : Reg) (nn : Byte) : layoutXnn p x nn &&& 0xF000 = layoutXnn p 0 0 := by
  have h : (0xF000 : Word) = ((0xF#4 ++ 0#4) ++ 0#8) := rfl
  rw [h, layoutXnn, layoutXnn, BitVec.and_append, BitVec.and_append]
  simp [regDigit]

theorem layoutXnn_mask_nn (p : Digit) (x : Reg) (nn : Byte) : layoutXnn p x nn &&& 0xF0FF = layoutXnn p 0 nn := by
  have h : (0xF0FF : Word) = ((0xF#4 ++ 0#4) ++ 0xFF#8) := rfl
  rw [h, layoutXnn, layoutXnn, BitVec.and_append, BitVec.and_append]
  simp [regDigit]

theorem layoutXyn_mask (p : Digit) (x y : Reg) (n : Digit) : layoutXyn p x y n &&& 0xF00F = layoutXyn p 0 0 n := by
  have h : (0xF00F : Word) = (((0xF#4 ++ 0#4) ++ 0#4) ++ 0xF#4) := rfl
  rw [h, layoutXyn, layoutXyn, BitVec.and_append, BitVec.and_append, BitVec.and_append]
  simp [regDigit]

theorem layoutXyn_mask_p (p : Digit) (x y : Reg) (n : Digit) : layoutXyn p x y n &&& 0xF000 = layoutXyn p 0 0 0 := by
  have h : (0xF000 : Word) = (((0xF#4 ++ 0#4) ++ 0#4) ++ 0x0#4) := rfl
  rw [h, layoutXyn, layoutXyn, BitVec.and_append, BitVec.and_append, BitVec.and_append]
  simp [regDigit]

/-! ### An opcode that matches a row has the row's fixed digits -/

/-- Bits 15:12 of a masked opcode. -/
theorem opField_of_mask {op bits mask : Word} (h : op &&& mask = bits) (hm : opField mask = 15#4) :
    opField op = opField bits := by
  rw [← h, opField, opField, BitVec.extractLsb'_and, ← opField, ← opField, hm, digit_and_ones]

/-- Bits 3:0 of a masked opcode. -/
theorem nField_of_mask {op bits mask : Word} (h : op &&& mask = bits) (hm : nField mask = 15#4) :
    nField op = nField bits := by
  rw [← h, nField, nField, BitVec.extractLsb'_and, ← nField, ← nField, hm, digit_and_ones]

/-- Bits 7:0 of a masked opcode. -/
theorem nnField_of_mask {op bits mask : Word} (h : op &&& mask = bits) (hm : nnField mask = 255#8) :
    nnField op = nnField bits := by
  rw [← h, nnField, nnField, BitVec.extractLsb'_and, ← nnField, ← nnField, hm, byte_and_ones]

end Sys2Proof
end

