-- ==== Sys2Proof/Laws/Exec.lean ====
section
/-! SUPPORT. What the shared operations do not depend on: the fault register, the sound timer, the host operations still
to come and the tick's own output. Each operation commutes with a change of these. Then what the key-wait leaves alone
and which key it latches. -/

namespace Sys2Proof.Machine

open Sys2Proof

/-! ### The key scan -/

theorem allKeys_eq : allKeys = List.finRange 16 := by decide

/-- With no key pressed the scan finds none (R234). -/
theorem State.lowestKey_none {s : State} (h : ∀ j : Key, s.keyDown j = false) : s.lowestKey = none := by
  simp [State.lowestKey, h]

/-- The scan finds the lowest pressed key (R234). -/
theorem State.lowestKey_some {s : State} {k : Key} (hk : s.keyDown k = true)
    (h : ∀ j : Key, j < k → s.keyDown j = false) : s.lowestKey = some k := by
  unfold State.lowestKey
  rw [allKeys_eq, List.find?_eq_some_iff_append]
  refine ⟨hk, (List.finRange 16).take k.val, (List.finRange 16).drop (k.val + 1), ?_, ?_⟩
  · conv_lhs => rw [← List.take_append_drop k.val (List.finRange 16)]
    rw [List.drop_eq_getElem_cons (by simp)]
    simp
  · intro a ha
    obtain ⟨i, hi, rfl⟩ := List.mem_iff_getElem.1 ha
    simp only [List.length_take, List.length_finRange] at hi
    simp only [List.getElem_take, List.getElem_finRange, Bool.not_eq_true']
    exact h _ (by rw [Fin.lt_def]; simp; omega)

/-! ### The key wait -/

/-- The key wait writes only registers, latch and pc (R234). -/
theorem State.waitKey_eq (s : State) (x : Reg) :
    s.waitKey x = { s with v := (s.waitKey x).v, kw := (s.waitKey x).kw, pc := (s.waitKey x).pc } := by
  unfold State.waitKey
  cases s.kw with
  | idle =>
    unfold State.latchKey State.rollBack
    cases s.lowestKey <;> rfl
  | latched k =>
    unfold State.rollBack
    dsimp only
    cases s.keyDown k <;> rfl

@[simp] theorem State.waitKey_i (s : State) (x : Reg) : (s.waitKey x).i = s.i := by rw [State.waitKey_eq]
@[simp] theorem State.waitKey_sp (s : State) (x : Reg) : (s.waitKey x).sp = s.sp := by rw [State.waitKey_eq]
@[simp] theorem State.waitKey_stack (s : State) (x : Reg) : (s.waitKey x).stack = s.stack := by rw [State.waitKey_eq]
@[simp] theorem State.waitKey_dt (s : State) (x : Reg) : (s.waitKey x).dt = s.dt := by rw [State.waitKey_eq]
@[simp] theorem State.waitKey_st (s : State) (x : Reg) : (s.waitKey x).st = s.st := by rw [State.waitKey_eq]
@[simp] theorem State.waitKey_mem (s : State) (x : Reg) : (s.waitKey x).mem = s.mem := by rw [State.waitKey_eq]
@[simp] theorem State.waitKey_fb (s : State) (x : Reg) : (s.waitKey x).fb = s.fb := by rw [State.waitKey_eq]
@[simp] theorem State.waitKey_fault (s : State) (x : Reg) : (s.waitKey x).fault = s.fault := by rw [State.waitKey_eq]
@[simp] theorem State.waitKey_lastRom (s : State) (x : Reg) : (s.waitKey x).lastRom = s.lastRom := by
  rw [State.waitKey_eq]
@[simp] theorem State.waitKey_pc0 (s : State) (x : Reg) : (s.waitKey x).pc0 = s.pc0 := by rw [State.waitKey_eq]
@[simp] theorem State.waitKey_op (s : State) (x : Reg) : (s.waitKey x).op = s.op := by rw [State.waitKey_eq]
@[simp] theorem State.waitKey_out (s : State) (x : Reg) : (s.waitKey x).out = s.out := by rw [State.waitKey_eq]
@[simp] theorem State.waitKey_keys (s : State) (x : Reg) : (s.waitKey x).keys = s.keys := by rw [State.waitKey_eq]
@[simp] theorem State.waitKey_draws (s : State) (x : Reg) : (s.waitKey x).draws = s.draws := by rw [State.waitKey_eq]
@[simp] theorem State.waitKey_pending (s : State) (x : Reg) : (s.waitKey x).pending = s.pending := by
  rw [State.waitKey_eq]
@[simp] theorem State.waitKey_cfg (s : State) (x : Reg) : (s.waitKey x).cfg = s.cfg := by rw [State.waitKey_eq]

/-! ### Fields that no operation reads -/

/-- A change of what no operation of an instruction reads: the sound timer, the host operations to come and the tick's
gathered output. -/
def State.unread (s : State) (b : Byte) (p : List HostOp) (d : Bool) : State :=
  { s with st := b, pending := p, out := { s.out with tickDirty := d } }

section
variable (s : State) (b : Byte) (p : List HostOp) (d : Bool)

theorem State.raise_unread (c : FaultCode) (w : Word) :
    (s.unread b p d).raise c w = (s.raise c w).unread b p d := by
  unfold State.raise
  rw [show (s.unread b p d).fault = s.fault from rfl]
  split <;> rfl

theorem State.checkAddr_unread (a : Word) : (s.unread b p d).checkAddr a = (s.checkAddr a).unread b p d := by
  unfold State.checkAddr; split
  · rfl
  · exact State.raise_unread ..

theorem State.checkKey_unread (v : Byte) : (s.unread b p d).checkKey v = (s.checkKey v).unread b p d := by
  unfold State.checkKey; split
  · rfl
  · exact State.raise_unread ..

theorem State.memWrite_unread (a : Word) (v : Byte) :
    (s.unread b p d).memWrite a v = (s.memWrite a v).unread b p d := by
  unfold State.memWrite; split
  · rfl
  · exact State.raise_unread ..

theorem State.skipIf_unread (c : Bool) : (s.unread b p d).skipIf c = (s.skipIf c).unread b p d := by
  cases c <;> rfl

theorem State.callTo_unread (w : Word) : (s.unread b p d).callTo w = (s.callTo w).unread b p d := by
  simp only [State.callTo]
  by_cases h : s.sp.val < 16
  · rw [dif_pos h, dif_pos (show (s.unread b p d).sp.val < 16 from h)]; rfl
  · rw [dif_neg h, dif_neg (show ¬ (s.unread b p d).sp.val < 16 from h)]; exact State.raise_unread ..

theorem State.returnFromCall_unread : (s.unread b p d).returnFromCall = s.returnFromCall.unread b p d := by
  simp only [State.returnFromCall]
  by_cases h : 0 < s.sp.val
  · rw [dif_pos h, dif_pos (show 0 < (s.unread b p d).sp.val from h)]; rfl
  · rw [dif_neg h, dif_neg (show ¬ 0 < (s.unread b p d).sp.val from h)]; exact State.raise_unread ..

theorem State.storeUpTo_unread (k : Nat) : (s.unread b p d).storeUpTo k = (s.storeUpTo k).unread b p d := by
  induction k with
  | zero => rfl
  | succ k ih => rw [State.storeUpTo, ih]; exact State.memWrite_unread ..

theorem State.loadUpTo_unread (k : Nat) : (s.unread b p d).loadUpTo k = (s.loadUpTo k).unread b p d := by
  induction k with
  | zero => rfl
  | succ k ih =>
    simp only [State.loadUpTo, ih]
    rw [show (s.unread b p d).indexed k = s.indexed k from rfl, State.checkAddr_unread]; rfl

theorem State.checkRows_unread (k : Nat) : (s.unread b p d).checkRows k = (s.checkRows k).unread b p d := by
  induction k with
  | zero => rfl
  | succ k ih => rw [State.checkRows, ih]; exact State.checkAddr_unread ..

theorem State.spriteRows_unread (k : Nat) : (s.unread b p d).spriteRows k = s.spriteRows k := by
  induction k with
  | zero => rfl
  | succ k ih => rw [State.spriteRows, ih]; rfl

theorem State.waitKey_unread (x : Reg) : (s.unread b p d).waitKey x = (s.waitKey x).unread b p d := by
  unfold State.waitKey State.latchKey
  rw [show (s.unread b p d).kw = s.kw from rfl, show (s.unread b p d).lowestKey = s.lowestKey from rfl]
  cases s.kw with
  | idle => cases s.lowestKey <;> rfl
  | latched k =>
    dsimp only
    rw [show (s.unread b p d).keyDown k = s.keyDown k from rfl]
    cases s.keyDown k <;> rfl

theorem State.fetch_unread : (s.unread b p d).fetch = s.fetch.unread b p d := by
  simp only [State.fetch]
  rw [← State.checkAddr_unread, ← State.checkAddr_unread]; rfl

end

/-- Taking an operation off the list before the fetch or after it is the same. -/
theorem State.fetch_withPending (s : State) (p : List HostOp) :
    ({ s with pending := p } : State).fetch = { s.fetch with pending := p } := by
  have h : s.unread s.st p s.out.tickDirty = { s with pending := p } := rfl
  rw [← h, State.fetch_unread]
  simp [State.unread]

/-! ### The fault register is read only by a record -/

section
variable (s : State) (f : FaultRecord)

theorem State.memWrite_withFault (a : Word) (b : Byte) :
    ({ s with fault := f } : State).memWrite a b =
      { s.memWrite a b with fault := (({ s with fault := f } : State).memWrite a b).fault } := by
  unfold State.memWrite; split
  · rfl
  · rw [State.raise_eq, State.raise_eq]

theorem State.storeUpTo_withFault (k : Nat) :
    ({ s with fault := f } : State).storeUpTo k =
      { s.storeUpTo k with fault := (({ s with fault := f } : State).storeUpTo k).fault } := by
  induction k with
  | zero => rfl
  | succ k ih =>
    simp only [State.storeUpTo]
    rw [ih]
    exact State.memWrite_withFault _ _ _ _

theorem State.loadUpTo_withFault (k : Nat) :
    ({ s with fault := f } : State).loadUpTo k =
      { s.loadUpTo k with fault := (({ s with fault := f } : State).loadUpTo k).fault } := by
  induction k with
  | zero => rfl
  | succ k ih =>
    simp only [State.loadUpTo]
    rw [ih, State.checkAddr_eq, State.checkAddr_eq]
    rfl

theorem State.callTo_withFault (w : Word) :
    ({ s with fault := f } : State).callTo w =
      { s.callTo w with fault := (({ s with fault := f } : State).callTo w).fault } := by
  unfold State.callTo
  by_cases h : s.sp.val < 16
  · rw [dif_pos h, dif_pos h]
  · rw [dif_neg h, dif_neg h, State.raise_eq, State.raise_eq]

theorem State.returnFromCall_withFault :
    ({ s with fault := f } : State).returnFromCall =
      { s.returnFromCall with fault := (({ s with fault := f } : State).returnFromCall).fault } := by
  unfold State.returnFromCall
  by_cases h : 0 < s.sp.val
  · rw [dif_pos h, dif_pos h]
  · rw [dif_neg h, dif_neg h, State.raise_eq, State.raise_eq]

theorem State.waitKey_withFault (x : Reg) :
    ({ s with fault := f } : State).waitKey x = { s.waitKey x with fault := f } := by
  generalize ht : ({ s with fault := f } : State) = t
  have hk : t.kw = s.kw := by rw [← ht]
  have hl : t.lowestKey = s.lowestKey := by rw [← ht]; rfl
  have hd : ∀ k, t.keyDown k = s.keyDown k := fun k => by rw [← ht]; rfl
  unfold State.waitKey State.latchKey
  rw [hk, hl]
  cases s.kw with
  | idle =>
    cases s.lowestKey <;> (subst ht; rfl)
  | latched k =>
    dsimp only
    rw [hd]
    cases s.keyDown k <;> (subst ht; rfl)

theorem State.spriteRows_withFault (k : Nat) :
    ({ s with fault := f } : State).spriteRows k = s.spriteRows k := by
  induction k with
  | zero => rfl
  | succ k ih => rw [State.spriteRows, ih]; rfl

end

/-! ### Executing does not read the host's fields -/

/-- An instruction does the same whatever operations are still to come and whatever the tick has gathered. -/
theorem exec_hostFields {i : Instr} {s t : State} (h : exec i s = .next t) (p : List HostOp) (d : Bool) :
    exec i (s.unread s.st p d) = .next (t.unread t.st p d) := by
  cases i <;> cases h
  case drw x y n =>
    simp only [exec, execDrw]
    rw [show (s.unread s.st p d).setV Reg.vf 0 = (s.setV Reg.vf 0).unread s.st p d from rfl,
      State.checkRows_unread, State.spriteRows_unread]
    simp [State.unread, State.markDirty, State.setV, State.getV]
  case ret => exact congrArg _ ((State.returnFromCall_unread ..).trans (by rw [State.returnFromCall_st]))
  case call nnn => exact congrArg _ ((State.callTo_unread ..).trans (by rw [State.callTo_st]))
  case seImm => exact congrArg _ ((State.skipIf_unread ..).trans (by rw [State.skipIf_st]; rfl))
  case sneImm => exact congrArg _ ((State.skipIf_unread ..).trans (by rw [State.skipIf_st]; rfl))
  case seReg => exact congrArg _ ((State.skipIf_unread ..).trans (by rw [State.skipIf_st]; rfl))
  case sneReg => exact congrArg _ ((State.skipIf_unread ..).trans (by rw [State.skipIf_st]; rfl))
  case storeRegs => exact congrArg _ ((State.storeUpTo_unread ..).trans (by rw [State.storeUpTo_st]))
  case loadRegs => exact congrArg _ ((State.loadUpTo_unread ..).trans (by rw [State.loadUpTo_st]))
  case ldVxK => exact congrArg _ ((State.waitKey_unread ..).trans (by rw [State.waitKey_st]))
  case skp x =>
    simp only [exec, execSkp]
    rw [State.checkKey_unread, State.skipIf_unread, State.skipIf_st, State.checkKey_st]; rfl
  case sknp x =>
    simp only [exec, execSknp]
    rw [State.checkKey_unread, State.skipIf_unread, State.skipIf_st, State.checkKey_st]; rfl
  case ldB x =>
    simp only [exec, execLdB]
    rw [State.memWrite_unread, State.memWrite_unread, State.memWrite_unread, State.memWrite_st, State.memWrite_st,
      State.memWrite_st]; rfl
  all_goals rfl

/-- So does a whole instruction cycle. -/
theorem cycle_hostFields {s t : State} (h : cycle s = .next t) (p : List HostOp) (d : Bool) :
    cycle (s.unread s.st p d) = .next (t.unread t.st p d) := by
  unfold cycle at h ⊢
  rw [State.fetch_unread, show (s.fetch.unread s.st p d).op = s.fetch.op from rfl]
  cases hd : decodeOp s.fetch.op with
  | ok i =>
    rw [hd] at h
    simpa using exec_hostFields h p d
  | error r =>
    rw [hd] at h
    cases h
    simp only [State.markUnimp_st, State.fetch_st]; rfl

/-! ### A cycle at a key wait -/

/-- While a key is latched, a cycle at the `FX0A` either finds it held and stays there or finds it released and clears
the latch (R234). -/
theorem cycle_latched {s t : State} {k : Key} {x : Reg} (hd : decodeOp s.opcodeAt = .ok (.ldVxK x))
    (hk : s.kw = .latched k) (h : cycle s = .next t) :
    t.keys = s.keys ∧
      ((s.keyDown k = true ∧ t.kw = .latched k ∧ t.pc = s.pc ∧ t.opcodeAt = s.opcodeAt) ∨
       (s.keyDown k = false ∧ t.kw = .idle)) := by
  simp only [cycle, State.fetch_op, hd, exec, execLdVxK] at h
  cases h
  refine ⟨by simp, ?_⟩
  have hf : s.fetch.keyDown k = s.keyDown k := by simp [State.keyDown]
  cases h' : s.keyDown k
  · right
    simp [State.waitKey, hk, hf, h']
  · left
    have e : s.fetch.waitKey x = s.fetch.rollBack := by simp [State.waitKey, hk, hf, h']
    rw [e]
    exact ⟨rfl, by simpa using hk, by simp, State.opcodeAt_congr (by simp) (by simp) (by simp)⟩

/-! ### The display -/

/-- Two screens with the same pixels are equal. -/
theorem Screen.ext_pixel {a b : Screen} (h : ∀ px py, px < 64 → py < 32 → a.pixel px py = b.pixel px py) : a = b := by
  apply Vector.ext
  intro j hj
  apply BitVec.eq_of_getLsbD_eq
  intro k hk
  have := h k j hk hj
  simpa [Screen.pixel, hj] using this

end Sys2Proof.Machine
end

