-- ==== Sys2Proof/Laws/PerInstr.lean ====
section
/-! SUPPORT. Statements per instruction, about the instruction as syntax. The family TableForm: the opcode of an
instruction matches the row of the opcode table the instruction is an instance of (spec 30_encoding.md R80, R89), and
that row is one of the table's 34. -/

namespace Sys2Proof.Laws.TableForm

open Sys2Proof

/-- The encoded instruction matches its own row, and the row is in the table. -/
def Statement (i : Instr) : Prop := (tableRow i).holds (encode i) = true ∧ tableRow i ∈ opcodeTable

/-- From the masked opcode to the row. -/
theorem of_mask {i : Instr} (h : encode i &&& (tableRow i).mask = (tableRow i).bits) (h' : tableRow i ∈ opcodeTable) :
    Statement i :=
  ⟨by simp [TableRow.holds, h], h'⟩

theorem cls : Statement .cls := ⟨rfl, by decide⟩

theorem ret : Statement .ret := ⟨rfl, by decide⟩

theorem jp (nnn : Addr12) : Statement (.jp nnn) :=
  of_mask ((layoutNnn_mask _ _).trans rfl) (by decide : (⟨0x1000, 0xF000⟩ : TableRow) ∈ opcodeTable)

theorem call (nnn : Addr12) : Statement (.call nnn) :=
  of_mask ((layoutNnn_mask _ _).trans rfl) (by decide : (⟨0x2000, 0xF000⟩ : TableRow) ∈ opcodeTable)

theorem seImm (x : Reg) (nn : Byte) : Statement (.seImm x nn) :=
  of_mask ((layoutXnn_mask _ _ _).trans rfl) (by decide : (⟨0x3000, 0xF000⟩ : TableRow) ∈ opcodeTable)

theorem sneImm (x : Reg) (nn : Byte) : Statement (.sneImm x nn) :=
  of_mask ((layoutXnn_mask _ _ _).trans rfl) (by decide : (⟨0x4000, 0xF000⟩ : TableRow) ∈ opcodeTable)

theorem seReg (x : Reg) (y : Reg) : Statement (.seReg x y) :=
  of_mask ((layoutXyn_mask _ _ _ _).trans rfl) (by decide : (⟨0x5000, 0xF00F⟩ : TableRow) ∈ opcodeTable)

theorem ldImm (x : Reg) (nn : Byte) : Statement (.ldImm x nn) :=
  of_mask ((layoutXnn_mask _ _ _).trans rfl) (by decide : (⟨0x6000, 0xF000⟩ : TableRow) ∈ opcodeTable)

theorem addImm (x : Reg) (nn : Byte) : Statement (.addImm x nn) :=
  of_mask ((layoutXnn_mask _ _ _).trans rfl) (by decide : (⟨0x7000, 0xF000⟩ : TableRow) ∈ opcodeTable)

theorem ldReg (x : Reg) (y : Reg) : Statement (.ldReg x y) :=
  of_mask ((layoutXyn_mask _ _ _ _).trans rfl) (by decide : (⟨0x8000, 0xF00F⟩ : TableRow) ∈ opcodeTable)

theorem orReg (x : Reg) (y : Reg) : Statement (.orReg x y) :=
  of_mask ((layoutXyn_mask _ _ _ _).trans rfl) (by decide : (⟨0x8001, 0xF00F⟩ : TableRow) ∈ opcodeTable)

theorem andReg (x : Reg) (y : Reg) : Statement (.andReg x y) :=
  of_mask ((layoutXyn_mask _ _ _ _).trans rfl) (by decide : (⟨0x8002, 0xF00F⟩ : TableRow) ∈ opcodeTable)

theorem xorReg (x : Reg) (y : Reg) : Statement (.xorReg x y) :=
  of_mask ((layoutXyn_mask _ _ _ _).trans rfl) (by decide : (⟨0x8003, 0xF00F⟩ : TableRow) ∈ opcodeTable)

theorem addReg (x : Reg) (y : Reg) : Statement (.addReg x y) :=
  of_mask ((layoutXyn_mask _ _ _ _).trans rfl) (by decide : (⟨0x8004, 0xF00F⟩ : TableRow) ∈ opcodeTable)

theorem subReg (x : Reg) (y : Reg) : Statement (.subReg x y) :=
  of_mask ((layoutXyn_mask _ _ _ _).trans rfl) (by decide : (⟨0x8005, 0xF00F⟩ : TableRow) ∈ opcodeTable)

theorem shr (x : Reg) (y : Reg) : Statement (.shr x y) :=
  of_mask ((layoutXyn_mask _ _ _ _).trans rfl) (by decide : (⟨0x8006, 0xF00F⟩ : TableRow) ∈ opcodeTable)

theorem subnReg (x : Reg) (y : Reg) : Statement (.subnReg x y) :=
  of_mask ((layoutXyn_mask _ _ _ _).trans rfl) (by decide : (⟨0x8007, 0xF00F⟩ : TableRow) ∈ opcodeTable)

theorem shl (x : Reg) (y : Reg) : Statement (.shl x y) :=
  of_mask ((layoutXyn_mask _ _ _ _).trans rfl) (by decide : (⟨0x800E, 0xF00F⟩ : TableRow) ∈ opcodeTable)

theorem sneReg (x : Reg) (y : Reg) : Statement (.sneReg x y) :=
  of_mask ((layoutXyn_mask _ _ _ _).trans rfl) (by decide : (⟨0x9000, 0xF00F⟩ : TableRow) ∈ opcodeTable)

theorem ldI (nnn : Addr12) : Statement (.ldI nnn) :=
  of_mask ((layoutNnn_mask _ _).trans rfl) (by decide : (⟨0xA000, 0xF000⟩ : TableRow) ∈ opcodeTable)

theorem jpV0 (nnn : Addr12) : Statement (.jpV0 nnn) :=
  of_mask ((layoutNnn_mask _ _).trans rfl) (by decide : (⟨0xB000, 0xF000⟩ : TableRow) ∈ opcodeTable)

theorem rnd (x : Reg) (nn : Byte) : Statement (.rnd x nn) :=
  of_mask ((layoutXnn_mask _ _ _).trans rfl) (by decide : (⟨0xC000, 0xF000⟩ : TableRow) ∈ opcodeTable)

theorem drw (x : Reg) (y : Reg) (n : Nat) : Statement (.drw x y n) :=
  of_mask ((layoutXyn_mask_p _ _ _ _).trans rfl) (by decide : (⟨0xD000, 0xF000⟩ : TableRow) ∈ opcodeTable)

theorem skp (x : Reg) : Statement (.skp x) :=
  of_mask ((layoutXnn_mask_nn _ _ _).trans rfl) (by decide : (⟨0xE09E, 0xF0FF⟩ : TableRow) ∈ opcodeTable)

theorem sknp (x : Reg) : Statement (.sknp x) :=
  of_mask ((layoutXnn_mask_nn _ _ _).trans rfl) (by decide : (⟨0xE0A1, 0xF0FF⟩ : TableRow) ∈ opcodeTable)

theorem ldVxDt (x : Reg) : Statement (.ldVxDt x) :=
  of_mask ((layoutXnn_mask_nn _ _ _).trans rfl) (by decide : (⟨0xF007, 0xF0FF⟩ : TableRow) ∈ opcodeTable)

theorem ldVxK (x : Reg) : Statement (.ldVxK x) :=
  of_mask ((layoutXnn_mask_nn _ _ _).trans rfl) (by decide : (⟨0xF00A, 0xF0FF⟩ : TableRow) ∈ opcodeTable)

theorem ldDtVx (x : Reg) : Statement (.ldDtVx x) :=
  of_mask ((layoutXnn_mask_nn _ _ _).trans rfl) (by decide : (⟨0xF015, 0xF0FF⟩ : TableRow) ∈ opcodeTable)

theorem ldStVx (x : Reg) : Statement (.ldStVx x) :=
  of_mask ((layoutXnn_mask_nn _ _ _).trans rfl) (by decide : (⟨0xF018, 0xF0FF⟩ : TableRow) ∈ opcodeTable)

theorem addI (x : Reg) : Statement (.addI x) :=
  of_mask ((layoutXnn_mask_nn _ _ _).trans rfl) (by decide : (⟨0xF01E, 0xF0FF⟩ : TableRow) ∈ opcodeTable)

theorem ldF (x : Reg) : Statement (.ldF x) :=
  of_mask ((layoutXnn_mask_nn _ _ _).trans rfl) (by decide : (⟨0xF029, 0xF0FF⟩ : TableRow) ∈ opcodeTable)

theorem ldB (x : Reg) : Statement (.ldB x) :=
  of_mask ((layoutXnn_mask_nn _ _ _).trans rfl) (by decide : (⟨0xF033, 0xF0FF⟩ : TableRow) ∈ opcodeTable)

theorem storeRegs (x : Reg) : Statement (.storeRegs x) :=
  of_mask ((layoutXnn_mask_nn _ _ _).trans rfl) (by decide : (⟨0xF055, 0xF0FF⟩ : TableRow) ∈ opcodeTable)

theorem loadRegs (x : Reg) : Statement (.loadRegs x) :=
  of_mask ((layoutXnn_mask_nn _ _ _).trans rfl) (by decide : (⟨0xF065, 0xF0FF⟩ : TableRow) ∈ opcodeTable)

end Sys2Proof.Laws.TableForm
end

