-- ==== Sys2Proof/Laws/Step.lean ====
section
/-! SUPPORT. How `step` and a run reduce to the instruction cycle, what no instruction and no cycle changes, and that a
cycle always completes. -/

namespace Sys2Proof.Machine

open Sys2Proof

/-! ### The next operation -/

/-- With nothing pending a step is one instruction cycle (R281, log 1). -/
theorem step_of_nil {s : State} (hp : s.pending = []) (hl : s.out.loadStatus = .ok) : step s = cycle s := by
  simp [step, perform, hp, opStep, hl]

/-- With STEP the next operation, too. -/
theorem step_of_step {s : State} {rest : List HostOp} (hp : s.pending = .step :: rest) (hl : s.out.loadStatus = .ok) :
    step s = cycle { s with pending := rest } := by
  simp [step, perform, hp, opStep, hl]

/-- With TICK the next operation a step is one tick. -/
theorem step_of_tick {s : State} {rest : List HostOp} (hp : s.pending = .tick :: rest) (hl : s.out.loadStatus = .ok) :
    step s = tick { s with pending := rest } := by
  simp [step, perform, hp, opTick, hl]

theorem step_of_load {s : State} {rom : List Byte} {rest : List HostOp} (hp : s.pending = .load rom :: rest) :
    step s = .next (({ s with pending := rest } : State).load rom) := by
  simp [step, perform, hp]

theorem step_of_setKeys {s : State} {k : BitVec 16} {rest : List HostOp} (hp : s.pending = .setKeys k :: rest) :
    step s = .next { s with pending := rest, keys := k } := by
  simp [step, perform, hp]

/-- A run goes on from the state its first step answers. -/
theorem run_succ_of_step {s t : State} (h : step s = .next t) (n : Nat) :
    Sys2Proof.core.run (n + 1) s = Sys2Proof.core.run n t := by
  have h' : Sys2Proof.core.step s = .next t := h
  simp only [Host.Core.run, h']

/-! ### What a cycle leaves alone -/

/-- No instruction changes the host's side of the state (R38, R237). -/
theorem exec_host_frame {i : Instr} {s t : State} (h : exec i s = .next t) :
    t.pending = s.pending ∧ t.cfg = s.cfg ∧ t.keys = s.keys ∧ t.lastRom = s.lastRom ∧
      t.out.loadStatus = s.out.loadStatus ∧ t.out.tickDirty = s.out.tickDirty ∧
      t.out.soundActive = s.out.soundActive := by
  cases i <;> cases h <;> simp [State.markDirty]

/-- Nor does a cycle. -/
theorem cycle_host_frame {s t : State} (h : cycle s = .next t) :
    t.pending = s.pending ∧ t.cfg = s.cfg ∧ t.keys = s.keys ∧ t.lastRom = s.lastRom ∧
      t.out.loadStatus = s.out.loadStatus ∧ t.out.tickDirty = s.out.tickDirty ∧
      t.out.soundActive = s.out.soundActive := by
  unfold cycle at h
  split at h
  · simpa using exec_host_frame h
  · cases h
    simp [State.markUnimp]

/-- A cycle answers a next state: that of its instruction, or that of a no-op (R79, R260). -/
theorem cycle_completes (s : State) : ∃ t, cycle s = .next t := by
  unfold cycle
  split
  · next i _ => cases i <;> exact ⟨_, rfl⟩
  · exact ⟨_, rfl⟩

/-- The steps of a tick answer a next state. -/
theorem batch_completes (n : Nat) (s : State) : ∃ t, batch n s = .next t := by
  induction n generalizing s with
  | zero => exact ⟨s, rfl⟩
  | succ n ih =>
    obtain ⟨t, ht⟩ := cycle_completes s
    simp only [batch, ht]
    exact ih _

/-- A property that every cycle and every gathering of the dirty output keeps, the steps of a tick keep. -/
theorem batch_keeps {P : State → Prop} (hc : ∀ s t, P s → cycle s = .next t → P t)
    (hg : ∀ s : State, P s → P s.gatherDirty) {n : Nat} {s t : State} (hs : P s) (h : batch n s = .next t) : P t := by
  induction n generalizing s with
  | zero => cases h; exact hs
  | succ n ih =>
    obtain ⟨u, hu⟩ := cycle_completes s
    simp only [batch, hu] at h
    exact ih (hg _ (hc _ _ hs hu)) h

/-- A property of the state that every operation of the host keeps, every step keeps. -/
theorem step_keeps {P : State → Prop} (hc : ∀ s t, P s → cycle s = .next t → P t)
    (hg : ∀ s : State, P s → P s.gatherDirty) (he : ∀ s : State, P s → P s.endTick)
    (hp : ∀ (s : State) (p : List HostOp), P s → P { s with pending := p })
    (hd : ∀ (s : State) (d : Bool), P s → P { s with out := { s.out with tickDirty := d } })
    (hk : ∀ (s : State) (k : BitVec 16), P s → P { s with keys := k })
    (hl : ∀ (s : State) (rom : List Byte), P s → P (s.load rom)) {s t : State} (hs : P s) (h : step s = .next t) :
    P t := by
  unfold step perform at h
  split at h
  · unfold opStep at h
    split at h
    · exact hc _ _ hs h
    · cases h
  · unfold opStep at h
    split at h
    · exact hc _ _ (hp _ _ hs) h
    · cases h
  · unfold opTick at h
    split at h
    · unfold tick at h
      split at h
      · next hb => cases h; exact he _ (batch_keeps hc hg (hd _ _ (hp _ _ hs)) hb)
      · cases h
      · cases h
    · cases h
  · cases h; exact hl _ _ (hp _ _ hs)
  · cases h; exact hl _ _ (hp _ _ hs)
  · next keys rest _ => cases h; exact hk _ keys (hp s rest hs)

end Sys2Proof.Machine
end

