-- ==== Sys2Proof/Tests/Slice0.lean ====
section
/-! SUPPORT. The model's own tests. Expected results are the spec's: the encoding table (30_encoding.md R89) and the test
vectors (95_test_vectors.md), named in each comment. Then, for every obligation with hypotheses, a state and operands
that meet them, clause by clause at the edges of their ranges. -/

namespace Sys2Proof.Tests

open Sys2Proof Sys2Proof.Machine

/-- The reset state with some registers set. -/
def withV (l : List (Reg × Byte)) : State := l.foldl (fun s e => s.setV e.1 e.2) State.reset

/-- One step on the opcode placed at pc completes and leaves a state that passes. -/
def after (s : State) (op : Nat) (p : State → Bool) : Bool :=
  match step (s.withFetchWord 16 op) with
  | .next t => p t
  | .fault _ => false
  | .refused _ => false

/-- One step completes and leaves a state that passes. -/
def goes (s : State) (p : State → Bool) : Bool :=
  match step s with
  | .next t => p t
  | .fault _ => false
  | .refused _ => false

/-- The state with one byte of memory written. -/
def withByte (s : State) (a : Word) (b : Byte) : State := s.memWrite a b

/-- The state with an opcode at pc and no operation pending. -/
def ready (s : State) (op : Nat) : State := { s.withFetchWord 16 op with pending := [] }

/-- The state with another instruction rate. -/
def withIps (s : State) (ips : Nat) : State := { s with cfg := { s.cfg with ips := ips } }

/-! ### Well-formedness -/

/-- R74: a row count of 16 has no encoding. -/
theorem test_wf_refuses_row_count_16 : (Instr.drw 0 0 16).wellFormed = false := by decide

/-- R74: 15 has one. -/
theorem test_wf_accepts_row_count_15 : (Instr.drw 0 0 15).wellFormed = true := by decide

/-- R303, S11: 3585 bytes do not fit. -/
theorem test_wf_refuses_rom_of_3585 : romFits (List.replicate 3585 0) = false := by
  rw [romFits, List.length_replicate]; decide

/-- R303, S11: 3584 bytes fit. -/
theorem test_wf_accepts_rom_of_3584 : romFits (List.replicate 3584 0) = true := by
  rw [romFits, List.length_replicate]; decide

/-! ### Decoding: one word for each row of R89, its digits written out from the form -/

theorem test_decode_cls : decodeTableWord 16 0x00E0 = some (.cls) := by decide

theorem test_decode_ret : decodeTableWord 16 0x00EE = some (.ret) := by decide

theorem test_decode_jp : decodeTableWord 16 0x1ABC = some (.jp 0xABC) := by decide

theorem test_decode_call : decodeTableWord 16 0x2210 = some (.call 0x210) := by decide

theorem test_decode_seImm : decodeTableWord 16 0x3342 = some (.seImm 3 0x42) := by decide

theorem test_decode_sneImm : decodeTableWord 16 0x4E07 = some (.sneImm 0xE 0x07) := by decide

theorem test_decode_seReg : decodeTableWord 16 0x5120 = some (.seReg 1 2) := by decide

theorem test_decode_ldImm : decodeTableWord 16 0x6A2B = some (.ldImm 0xA 0x2B) := by decide

theorem test_decode_addImm : decodeTableWord 16 0x70FF = some (.addImm 0 0xFF) := by decide

theorem test_decode_ldReg : decodeTableWord 16 0x8120 = some (.ldReg 1 2) := by decide

theorem test_decode_orReg : decodeTableWord 16 0x8341 = some (.orReg 3 4) := by decide

theorem test_decode_andReg : decodeTableWord 16 0x8562 = some (.andReg 5 6) := by decide

theorem test_decode_xorReg : decodeTableWord 16 0x8783 = some (.xorReg 7 8) := by decide

theorem test_decode_addReg : decodeTableWord 16 0x8AB4 = some (.addReg 0xA 0xB) := by decide

theorem test_decode_subReg : decodeTableWord 16 0x8CD5 = some (.subReg 0xC 0xD) := by decide

theorem test_decode_shr : decodeTableWord 16 0x8EF6 = some (.shr 0xE 0xF) := by decide

theorem test_decode_subnReg : decodeTableWord 16 0x8017 = some (.subnReg 0 1) := by decide

theorem test_decode_shl : decodeTableWord 16 0x823E = some (.shl 2 3) := by decide

theorem test_decode_sneReg : decodeTableWord 16 0x9F10 = some (.sneReg 0xF 1) := by decide

theorem test_decode_ldI : decodeTableWord 16 0xA300 = some (.ldI 0x300) := by decide

theorem test_decode_jpV0 : decodeTableWord 16 0xBFFF = some (.jpV0 0xFFF) := by decide

theorem test_decode_rnd : decodeTableWord 16 0xC30F = some (.rnd 3 0x0F) := by decide

theorem test_decode_drw : decodeTableWord 16 0xD12F = some (.drw 1 2 15) := by decide

theorem test_decode_skp : decodeTableWord 16 0xE59E = some (.skp 5) := by decide

theorem test_decode_sknp : decodeTableWord 16 0xE6A1 = some (.sknp 6) := by decide

theorem test_decode_ldVxDt : decodeTableWord 16 0xF307 = some (.ldVxDt 3) := by decide

theorem test_decode_ldVxK : decodeTableWord 16 0xF50A = some (.ldVxK 5) := by decide

theorem test_decode_ldDtVx : decodeTableWord 16 0xF315 = some (.ldDtVx 3) := by decide

theorem test_decode_ldStVx : decodeTableWord 16 0xF418 = some (.ldStVx 4) := by decide

theorem test_decode_addI : decodeTableWord 16 0xF21E = some (.addI 2) := by decide

theorem test_decode_ldF : decodeTableWord 16 0xF429 = some (.ldF 4) := by decide

theorem test_decode_ldB : decodeTableWord 16 0xF033 = some (.ldB 0) := by decide

theorem test_decode_storeRegs : decodeTableWord 16 0xFF55 = some (.storeRegs 15) := by decide

theorem test_decode_loadRegs : decodeTableWord 16 0xF265 = some (.loadRegs 2) := by decide

/-- DEC-2 to DEC-7: opcodes one digit away from a form match none. -/
theorem test_decode_near_misses :
    [0x0000, 0x01E0, 0x00EF, 0x5121, 0x9121, 0x8128, 0x800F, 0xE1A2, 0xF0FF].all (fun w => decodeTableWord 16 w == none) = true :=
  by decide

/-- R70: a decoder always needs two bytes. -/
theorem test_decode_truncated : decodeBytes [0x12] = .error .truncated := by decide

/-! ### Fetch and the step -/

/-- DEC-1, FLT-4: a no-op that advances pc and sets unimp, not a fault. -/
theorem test_unimplemented : after State.reset 0x0000 (fun t =>
    t.pc == 0x202 && t.out.unimp && t.fault == .clear && t.v == State.reset.v) = true := by decide

/-- DEC-8: the low byte out of range. -/
theorem test_fetch_low_out_of_range : goes (withByte { withV [(1, 9)] with pc := 0xFFF } 0xFFF 0x61) (fun t =>
    t.getV 1 == 0 && t.pc == 0x1001 && t.fault == ⟨.addrRange, 0x0FFF, 0x6100, 0x1000⟩) = true := by decide

/-- DEC-9: both bytes out of range, the first is recorded. -/
theorem test_fetch_both_out_of_range : goes { State.reset with pc := 0x10FE } (fun t =>
    t.pc == 0x1100 && t.out.unimp && t.fault == ⟨.addrRange, 0x10FE, 0x0000, 0x10FE⟩) = true := by decide

/-- DEC-10: pc wraps; the low byte is the font's first. -/
theorem test_fetch_wraps : goes { State.reset with pc := 0xFFFF } (fun t =>
    t.pc == 0x0001 && t.op == 0x00F0 && t.fault == ⟨.addrRange, 0xFFFF, 0x00F0, 0xFFFF⟩) = true := by decide

/-! ### Display -/

/-- DSP-1. -/
theorem test_cls : after { withV [(15, 0x33)] with fb := Vector.replicate 32 (BitVec.allOnes 64) } 0x00E0 (fun t =>
    t.fb == Vector.replicate 32 0 && t.getV 15 == 0x33 && t.out.dirty && t.pc == 0x202) = true := by decide

/-- DSP-10, DSP-8: clipped below, yet row 2 is read; VF is cleared. -/
theorem test_drw_clips_and_reads_all_rows :
    after (withByte { withV [(1, 31), (15, 9)] with i := 0xFFE } 0xFFE 0x80) 0xD013 (fun t =>
    t.fb.bit (31 * 64) && !t.fb.bit 0 && t.getV 15 == 0 && t.fault == ⟨.addrRange, 0x200, 0xD013, 0x1000⟩) = true :=
  by decide

/-- DSP-11: collision at the right edge, the other seven bits clipped. -/
theorem test_drw_collision :
    after (withByte { withV [(0, 63), (1, 5)] with i := 0x300, fb := State.reset.fb.set 5 (1#64 <<< 63) } 0x300 0xFF) 0xD011 (fun t =>
    t.fb == Vector.replicate 32 0 && t.getV 15 == 1 && t.out.dirty) = true := by decide

/-! ### Control transfer -/

/-- CTL-6. -/
theorem test_ret :
    after { State.reset with pc := 0x300, sp := 1, stack := State.reset.stack.set 0 0x206 } 0x00EE (fun t =>
    t.pc == 0x206 && t.sp == 0 && t.stack[0] == 0x206) = true := by decide

/-- CTL-7. -/
theorem test_ret_underflow : after State.reset 0x00EE (fun t =>
    t.pc == 0x202 && t.sp == 0 && t.fault == ⟨.stackUnderflow, 0x200, 0x00EE, 0⟩) = true := by decide

/-- CTL-3. -/
theorem test_jp : after State.reset 0x1FFF (fun t =>
    t.pc == 0x0FFF && t.fault == .clear) = true := by decide

/-- CTL-4. -/
theorem test_call : after { State.reset with pc := 0x204 } 0x2210 (fun t =>
    t.pc == 0x210 && t.sp == 1 && t.stack[0] == 0x206) = true := by decide

/-- CTL-5. -/
theorem test_call_overflow : after { State.reset with sp := 16 } 0x2300 (fun t =>
    t.pc == 0x202 && t.sp == 16 && t.stack == State.reset.stack && t.fault == ⟨.stackOverflow, 0x200, 0x2300, 16⟩) = true :=
  by decide

/-- CTL-9. -/
theorem test_jpV0 : after (withV [(0, 0xFF)]) 0xBFFF (fun t =>
    t.pc == 0x10FE) = true := by decide

/-- CTL-11: V5 is not read. -/
theorem test_jpV0_reads_v0_only : after (withV [(3, 0x10), (5, 0x10)]) 0xB300 (fun t =>
    t.pc == 0x300) = true := by decide

/-! ### Skips -/

/-- SKP-1. -/
theorem test_seImm_taken : after (withV [(3, 0x42)]) 0x3342 (fun t =>
    t.pc == 0x204) = true := by decide

/-- SKP-2. -/
theorem test_seImm_not_taken : after (withV [(3, 0x42)]) 0x3343 (fun t =>
    t.pc == 0x202) = true := by decide

/-- SKP-3. -/
theorem test_sneImm_not_taken : after (withV [(3, 0x42)]) 0x4342 (fun t =>
    t.pc == 0x202) = true := by decide

/-- SKP-4. -/
theorem test_sneImm_taken : after (withV [(3, 0x42)]) 0x4300 (fun t =>
    t.pc == 0x204) = true := by decide

/-- SKP-5. -/
theorem test_seReg_taken : after (withV [(1, 7), (2, 7)]) 0x5120 (fun t =>
    t.pc == 0x204) = true := by decide

/-- SKP-6. -/
theorem test_seReg_not_taken : after (withV [(1, 7), (2, 8)]) 0x5120 (fun t =>
    t.pc == 0x202) = true := by decide

/-- SKP-8. -/
theorem test_sneReg_taken : after (withV [(1, 7), (2, 8)]) 0x9120 (fun t =>
    t.pc == 0x204) = true := by decide

/-- SKP-9. -/
theorem test_sneReg_not_taken : after State.reset 0x9110 (fun t =>
    t.pc == 0x202) = true := by decide

/-! ### ALU -/

/-- ALU-1. -/
theorem test_ldImm : after State.reset 0x6A2B (fun t =>
    t.getV 0xA == 0x2B && t.pc == 0x202) = true := by decide

/-- S1. -/
theorem test_addImm_wraps : after (withV [(0, 0xFF)]) 0x7002 (fun t =>
    t.getV 0 == 0x01 && t.getV 15 == 0x00) = true := by decide

/-- ALU-5. -/
theorem test_addImm_vf : after (withV [(15, 0xFF)]) 0x7F01 (fun t =>
    t.getV 15 == 0x00) = true := by decide

/-- ALU-6. -/
theorem test_ldReg : after (withV [(1, 0x99)]) 0x8010 (fun t =>
    t.getV 0 == 0x99 && t.getV 1 == 0x99) = true := by decide

/-- ALU-7. -/
theorem test_orReg : after (withV [(0, 0xF0), (1, 0x0F), (15, 0x77)]) 0x8011 (fun t =>
    t.getV 0 == 0xFF && t.getV 15 == 0x77) = true := by decide

/-- ALU-8. -/
theorem test_andReg : after (withV [(0, 0xF0), (1, 0x3C)]) 0x8012 (fun t =>
    t.getV 0 == 0x30) = true := by decide

/-- ALU-10. -/
theorem test_xorReg : after (withV [(0, 0xA5)]) 0x8003 (fun t =>
    t.getV 0 == 0x00) = true := by decide

/-- S2. -/
theorem test_addReg : after (withV [(0, 0xFF), (1, 0x02)]) 0x8014 (fun t =>
    t.getV 0 == 0x01 && t.getV 15 == 1) = true := by decide

/-- ALU-15: VF as X. -/
theorem test_addReg_vf : after (withV [(15, 0xFF), (1, 0x02)]) 0x8F14 (fun t =>
    t.getV 15 == 0x03) = true := by decide

/-- ALU-22: strict. -/
theorem test_subReg_equal : after (withV [(0, 3), (1, 3)]) 0x8015 (fun t =>
    t.getV 0 == 0 && t.getV 15 == 0) = true := by decide

/-- ALU-26: VF as Y. -/
theorem test_subReg_vf : after (withV [(1, 0x10), (15, 0x05)]) 0x81F5 (fun t =>
    t.getV 1 == 0x0F && t.getV 15 == 1) = true := by decide

/-- ALU-38: Y ignored. -/
theorem test_shr : after (withV [(0, 0x05), (1, 0xAA)]) 0x8016 (fun t =>
    t.getV 0 == 0x02 && t.getV 15 == 1 && t.getV 1 == 0xAA) = true := by decide

/-- S12, ALU-40: the other flag mask. -/
theorem test_shr_lowNibble :
    after { withV [(0, 0x0E)] with cfg := { State.reset.cfg with shrFlagMask := .lowNibble } } 0x8006 (fun t =>
    t.getV 0 == 0x07 && t.getV 15 == 0x0E) = true := by decide

/-- ALU-29. -/
theorem test_subnReg : after (withV [(0, 3), (1, 5)]) 0x8017 (fun t =>
    t.getV 0 == 2 && t.getV 15 == 1) = true := by decide

/-- ALU-33: VF as Y. -/
theorem test_subnReg_vf : after (withV [(1, 3), (15, 5)]) 0x81F7 (fun t =>
    t.getV 1 == 0xFE && t.getV 15 == 1) = true := by decide

/-- ALU-42. -/
theorem test_shl : after (withV [(0, 0x81)]) 0x800E (fun t =>
    t.getV 0 == 0x02 && t.getV 15 == 1) = true := by decide

/-- ALU-45: VF as X. -/
theorem test_shl_vf : after (withV [(15, 0x80)]) 0x8F0E (fun t =>
    t.getV 15 == 0x02) = true := by decide

/-- ALU-48: whatever is drawn, one draw is taken. -/
theorem test_rnd : match step ((withV [(3, 7)]).withFetchWord 16 0xC300) with
    | .next t => t.getV 3 = 0 ∧ t.draws = 1
    | .fault _ => False
    | .refused _ => False := by
  refine ⟨?_, rfl⟩
  exact BitVec.and_zero

/-! ### Index and memory -/

/-- MEM-1. -/
theorem test_ldI : after State.reset 0xA300 (fun t =>
    t.i == 0x300) = true := by decide

/-- MEM-3. -/
theorem test_addI_wraps : after { withV [(0, 1), (15, 9)] with i := 0xFFFF } 0xF01E (fun t =>
    t.i == 0 && t.getV 15 == 9) = true := by decide

/-- MEM-7. -/
theorem test_ldF : after (withV [(0, 0xFF)]) 0xF029 (fun t =>
    t.i == 0x4FB) = true := by decide

/-- S6. -/
theorem test_ldB : after { withV [(0, 157)] with i := 0x300 } 0xF033 (fun t =>
    t.peek 0x300 == 1 && t.peek 0x301 == 5 && t.peek 0x302 == 7 && t.i == 0x300) = true := by decide

/-- MEM-10: the units byte is dropped. -/
theorem test_ldB_edge : after { withV [(0, 255)] with i := 0xFFE } 0xF033 (fun t =>
    t.peek 0xFFE == 2 && t.peek 0xFFF == 5 && t.fault == ⟨.addrRange, 0x200, 0xF033, 0x1000⟩) = true := by decide

/-- MEM-11. -/
theorem test_storeRegs : after { withV [(0, 0x11), (1, 0x22), (2, 0x33)] with i := 0x300 } 0xF155 (fun t =>
    t.peek 0x300 == 0x11 && t.peek 0x301 == 0x22 && t.peek 0x302 == 0 && t.i == 0x300) = true := by decide

/-- MEM-12: the address wraps between bytes. -/
theorem test_storeRegs_wraps : after { withV [(0, 0x11), (1, 0x22)] with i := 0xFFFF } 0xF155 (fun t =>
    t.peek 0x000 == 0x22 && t.fault == ⟨.addrRange, 0x200, 0xF155, 0xFFFF⟩) = true := by decide

/-- MEM-15: bytes out of range load as 0. -/
theorem test_loadRegs_edge : after (withByte { withV [(1, 9), (2, 9)] with i := 0xFFF } 0xFFF 0x77) 0xF265 (fun t =>
    t.getV 0 == 0x77 && t.getV 1 == 0 && t.getV 2 == 0 && t.fault == ⟨.addrRange, 0x200, 0xF265, 0x1000⟩) = true :=
  by decide

/-- MEM-16. -/
theorem test_loadRegs_vf : after (withByte { State.reset with i := 0x300 } 0x30F 0xAB) 0xFF65 (fun t =>
    t.getV 15 == 0xAB && t.i == 0x300) = true := by decide

/-! ### Keys -/

/-- KEY-1. -/
theorem test_skp : after { withV [(1, 5)] with keys := 0x0020 } 0xE19E (fun t =>
    t.pc == 0x204) = true := by decide

/-- KEY-5: above 0x0F no key is pressed. -/
theorem test_skp_range : after { withV [(0, 0x10)] with keys := 0xFFFF } 0xE09E (fun t =>
    t.pc == 0x202 && t.fault == ⟨.keyRange, 0x200, 0xE09E, 0x0010⟩) = true := by decide

/-- KEY-4. -/
theorem test_sknp : after { withV [(1, 5)] with keys := 0x0020 } 0xE1A1 (fun t =>
    t.pc == 0x202) = true := by decide

/-- KEY-6. -/
theorem test_sknp_range : after { withV [(0, 0x10)] with keys := 0xFFFF } 0xE0A1 (fun t =>
    t.pc == 0x204 && t.fault == ⟨.keyRange, 0x200, 0xE0A1, 0x0010⟩) = true := by decide

/-- KEY-7, step 2: the lowest pressed key is latched. -/
theorem test_ldVxK_latches : after { State.reset with keys := 0x00A0 } 0xF50A (fun t =>
    t.kw == .latched 5 && t.getV 5 == 0 && t.pc == 0x200) = true := by decide

/-- KEY-7, step 4: the release commits. -/
theorem test_ldVxK_commits : after { State.reset with kw := .latched 5, keys := 0x0080 } 0xF50A (fun t =>
    t.kw == .idle && t.getV 5 == 5 && t.pc == 0x202) = true := by decide

/-! ### Timers, ticks and the loader -/

/-- TMR-1. -/
theorem test_ldVxDt : after { State.reset with dt := 0x3C } 0xF307 (fun t =>
    t.getV 3 == 0x3C && t.dt == 0x3C) = true := by decide

/-- TMR-2. -/
theorem test_ldDtVx : after (withV [(3, 0x3C)]) 0xF315 (fun t =>
    t.dt == 0x3C && t.st == 0) = true := by decide

/-- TMR-3. -/
theorem test_ldStVx : after (withV [(3, 0x02)]) 0xF318 (fun t =>
    t.st == 0x02 && t.dt == 0) = true := by decide

/-- TMR-5, TMR-7: no step in the tick, the timers count down, sound is st before. -/
theorem test_tick_no_steps : goes { withIps State.reset 59 with dt := 1, st := 5, pending := [.tick] } (fun t =>
    t.dt == 0 && t.st == 4 && t.out.soundActive && !t.out.tickDirty && t.pc == 0x200 && t.pending == []) = true :=
  by decide

/-- TMR-8: dirty is the OR of the steps (00E0, then 1202). -/
theorem test_tick_dirty :
    goes (withByte (withByte (withByte { withIps State.reset 120 with pending := [.tick] } 0x201 0xE0) 0x202 0x12) 0x203 0x02) (fun t =>
    t.out.tickDirty && !t.out.dirty && t.pc == 0x202) = true := by decide

/-- TMR-10: a step never counts down. -/
theorem test_step_keeps_timers : after { State.reset with dt := 7 } 0x6A2B (fun t =>
    t.dt == 7 && t.st == 0) = true := by decide

/-- S11, LDR-1. -/
theorem test_load_empty :
    goes { withV [(3, 9)] with pc := 0x400, fault := ⟨.keyRange, 1, 2, 3⟩, pending := [.load []] } (fun t =>
    t.out.loadStatus == .ok && t.pc == 0x200 && t.getV 3 == 0 && t.peek 0x200 == 0 && t.fault == .clear) = true :=
  by decide

/-- LDR-4: RELOAD puts the font and the program back. -/
theorem test_reload :
    goes (withByte { State.reset with lastRom := [0x12, 0x34], kw := .latched 3, pending := [.reload] } 0x000 0x00) (fun t =>
    t.peek 0x000 == 0xF0 && t.peek 0x200 == 0x12 && t.peek 0x201 == 0x34 && t.kw == .idle && t.out.loadStatus == .ok) = true :=
  by decide

/-- U14: after a rejected LOAD a STEP is refused by name. -/
theorem test_step_after_rejected_load :
    step { State.reset with out := { State.reset.out with loadStatus := .romTooLarge } } = .refused .afterRejectedLoad :=
  rfl

/-- FLT-1: the first fault is kept. -/
theorem test_first_fault_kept :
    after { withV [(0, 255)] with i := 0xFFE, fault := ⟨.stackUnderflow, 0x200, 0x00EE, 0⟩, pc := 0x202 } 0xF033 (fun t =>
    t.peek 0xFFF == 5 && t.fault == ⟨.stackUnderflow, 0x200, 0x00EE, 0⟩) = true := by decide

/-! ### Witnesses: hypotheses of the obligations that something meets -/

theorem witness_step_runs_decoded : ∃ (s : State) (i : Instr), s.out.loadStatus = .ok ∧ i.wellFormed = true ∧
    decodeBytes [s.peek s.pc, s.peek (s.pc + 1)] = .ok (i, []) ∧ s.pending = [] ∧ InRange s.pc ∧ InRange (s.pc + 1) :=
  ⟨ready { State.reset with pc := 0xFFE } 0x6A2B, .ldImm 0xA 0x2B, by decide⟩

theorem witness_step_runs_decoded_pending :
    ∃ (s : State) (i : Instr) (rest : List HostOp), s.out.loadStatus = .ok ∧ i.wellFormed = true ∧
    decodeBytes [s.peek s.pc, s.peek (s.pc + 1)] = .ok (i, []) ∧ s.pending = .step :: rest :=
  ⟨{ ready State.reset 0xD00F with pending := [.step, .tick] }, .drw 0 0 15, [.tick], by decide⟩

theorem witness_fetch_low_out_of_range :
    ∃ s : State, (¬ InRange s.pc ∨ ¬ InRange (s.pc + 1)) ∧ s.pc = 0x0FFF ∧ s.fault.code = .none :=
  ⟨{ State.reset with pc := 0x0FFF }, by decide⟩

theorem witness_fetch_both_out_of_range :
    ∃ s : State, (¬ InRange s.pc ∨ ¬ InRange (s.pc + 1)) ∧ s.pc = 0x1000 ∧ s.fault.code = .none :=
  ⟨{ State.reset with pc := 0x1000 }, by decide⟩

theorem witness_fetch_high_out_of_range : ∃ s : State, ¬ InRange s.pc ∧ InRange (s.pc + 1) :=
  ⟨{ State.reset with pc := 0xFFFF }, by decide⟩

theorem witness_unimplemented :
    ∃ (s : State) (r : Reject) (rest : List HostOp), ((s.pending = [] ∧ rest = []) ∨ s.pending = .step :: rest) ∧
    s.out.loadStatus = .ok ∧ decodeOp s.opcodeAt = .error r ∧ InRange s.pc ∧ InRange (s.pc + 1) :=
  ⟨State.reset, .unimplemented 0x0000, [], by decide⟩

theorem witness_unimplemented_pending :
    ∃ (s : State) (r : Reject) (rest : List HostOp), ((s.pending = [] ∧ rest = []) ∨ s.pending = .step :: rest) ∧
    s.out.loadStatus = .ok ∧ decodeOp s.opcodeAt = .error r ∧ InRange s.pc ∧ InRange (s.pc + 1) :=
  ⟨{ ready { State.reset with pc := 0xFFE } 0x5121 with pending := [.step, .tick] }, .unimplemented 0x5121, [.tick], by decide⟩

theorem witness_fetch_then_step_pending :
    ∃ (s : State) (rest : List HostOp) (i : Instr), s.pending = .step :: rest ∧ s.out.loadStatus = .ok ∧
    (¬ InRange s.pc ∨ ¬ InRange (s.pc + 1)) ∧ decodeOp s.fetch.op = .ok i :=
  ⟨withByte { State.reset with pc := 0xFFF, pending := [.step] } 0xFFF 0x61, [], .ldImm 1 0, by decide⟩

theorem witness_fetch_then_no_op_pending :
    ∃ (s : State) (rest : List HostOp) (r : Reject), s.pending = .step :: rest ∧ s.out.loadStatus = .ok ∧
    (¬ InRange s.pc ∨ ¬ InRange (s.pc + 1)) ∧ decodeOp s.fetch.op = .error r :=
  ⟨{ State.reset with pc := 0x1000, pending := [.step, .step] }, [.step], .unimplemented 0, by decide⟩

theorem witness_rejected_load_retried : ∃ s : State, s.out.loadStatus = .romTooLarge ∧
    ((∃ rom rest, s.pending = .load rom :: rest) ∨ ∃ rest, s.pending = .reload :: rest) :=
  ⟨{ State.reset with out := { State.reset.out with loadStatus := .romTooLarge }, pending := [.load [0x12]] }, rfl,
    .inl ⟨[0x12], [], rfl⟩⟩

theorem witness_rejected_load_reloaded : ∃ s : State, s.out.loadStatus = .romTooLarge ∧
    ((∃ rom rest, s.pending = .load rom :: rest) ∨ ∃ rest, s.pending = .reload :: rest) :=
  ⟨{ State.reset with out := { State.reset.out with loadStatus := .romTooLarge }, pending := [.reload] }, rfl,
    .inr ⟨[], rfl⟩⟩

theorem witness_set_keys : ∃ (s : State) (keys : BitVec 16) (rest : List HostOp), s.out.loadStatus = .romTooLarge ∧
    s.pending = .setKeys keys :: rest :=
  ⟨{ State.reset with out := { State.reset.out with loadStatus := .romTooLarge }, pending := [.setKeys 0xFFFF] },
    0xFFFF, [], rfl, rfl⟩

theorem witness_latching_step_pending :
    ∃ (s t : State) (k : Key), (s.pending = [] ∨ ∃ rest, s.pending = .step :: rest) ∧ s.kw = .idle ∧
    step s = .next t ∧ t.kw = .latched k :=
  ⟨{ ready State.reset 0xFF0A with keys := 0x8000, pending := [.step, .tick] }, _, 15, .inr ⟨[.tick], rfl⟩, rfl, rfl,
    by decide⟩

theorem witness_no_step_counts_pending :
    ∃ s t : State, (s.pending = [] ∨ ∃ rest, s.pending = .step :: rest) ∧ step s = .next t :=
  ⟨{ State.reset with pending := [.step] }, _, .inr ⟨[], rfl⟩, rfl⟩

theorem witness_dirty_unimplemented_pending :
    ∃ (s t : State) (r : Reject), (s.pending = [] ∨ ∃ rest, s.pending = .step :: rest) ∧
    decodeOp s.opcodeAt = .error r ∧ step s = .next t :=
  ⟨{ State.reset with pending := [.step] }, _, .unimplemented 0x0000, .inr ⟨[], rfl⟩, by decide, rfl⟩

theorem witness_decode_of_encode : (Instr.drw 15 15 15).wellFormed = true := by decide

theorem witness_encode_of_decode : decodeOp 0xDFFF = .ok (.drw 15 15 15) := by decide

theorem witness_table_row : ∃ r ∈ opcodeTable, ∃ q ∈ opcodeTable, (0x5FF0 : Word) &&& r.mask = r.bits ∧
    (0x5FF0 : Word) &&& q.mask = q.bits := ⟨⟨0x5000, 0xF00F⟩, by decide, ⟨0x5000, 0xF00F⟩, by decide, by decide⟩

theorem witness_seReg_row : decodeOp 0x5FF0 = .ok (.seReg 15 15) ∧ decodeOp 0x9FF0 = .ok (.sneReg 15 15) := by decide

theorem witness_load :
    ∃ (s : State) (rom : List Byte) (rest : List HostOp), s.pending = .load rom :: rest ∧ rom.length ≤ 3584 ∧
    rom[0]? = some 0x12 :=
  ⟨{ State.reset with pending := [.load [0x12, 0x00], .step] }, [0x12, 0x00], [.step], by decide⟩

theorem witness_load_largest :
    ∃ (s : State) (rom : List Byte) (rest : List HostOp), s.pending = .load rom :: rest ∧ rom.length = 3584 ∧
    rom.length ≤ 3584 :=
  ⟨{ State.reset with pending := [.load (List.replicate 3584 0x12)] }, List.replicate 3584 0x12, [], rfl,
    List.length_replicate, Nat.le_of_eq List.length_replicate⟩

theorem witness_load_too_large :
    ∃ (s : State) (rom : List Byte) (rest : List HostOp), s.pending = .load rom :: rest ∧ 3584 < rom.length :=
  ⟨{ State.reset with pending := [.load (List.replicate 3585 0x12)] }, List.replicate 3585 0x12, [], rfl,
    by rw [List.length_replicate]; decide⟩

theorem witness_load_empty :
    ∃ (s : State) (rom : List Byte) (rest : List HostOp), s.pending = .load rom :: rest ∧ rom.length = 0 :=
  ⟨{ State.reset with pending := [.load []] }, [], [], by decide⟩

theorem witness_reload : ∃ (s : State) (rest : List HostOp), s.pending = .reload :: rest :=
  ⟨{ State.reset with pending := [.reload] }, [], rfl⟩

theorem witness_other_than_load : ∃ s t : State, step s = .next t ∧ ∀ rom rest, s.pending ≠ .load rom :: rest :=
  ⟨{ State.reset with pending := [.reload] }, _, rfl, by simp⟩

theorem witness_rejected_load : ∃ s : State, s.out.loadStatus = .romTooLarge ∧
    (s.pending = [] ∨ (∃ rest, s.pending = .step :: rest) ∨ ∃ rest, s.pending = .tick :: rest) :=
  ⟨{ State.reset with out := { State.reset.out with loadStatus := .romTooLarge }, pending := [.tick] }, rfl,
    .inr (.inr ⟨[], rfl⟩)⟩

theorem witness_load_ok : State.reset.out.loadStatus = .ok := by decide

theorem witness_mem_canonical_step : ∃ s t : State, s.MemCanonical ∧ step s = .next t :=
  ⟨{ State.reset with pending := [.setKeys 0xFFFF] }, _, Memory.wf_nil _, rfl⟩

theorem witness_latched_step : ∃ s t : State, s.LatchedAtWait ∧ s.kw = .latched 15 ∧ step s = .next t :=
  ⟨{ ready State.reset 0xFF0A with kw := .latched 15, keys := 0x8000, pending := [.setKeys 0] }, _,
    fun _ _ => ⟨15, by decide⟩, rfl, rfl⟩

theorem witness_latching_step :
    ∃ (s t : State) (k : Key), s.pending = [] ∧ s.kw = .idle ∧ step s = .next t ∧ t.kw = .latched k :=
  ⟨{ ready State.reset 0xFF0A with keys := 0x8000 }, _, 15, by decide, by decide, rfl, by decide⟩

theorem witness_latch_held :
    ∃ (s t : State) (k : Key), s.LatchedAtWait ∧ s.kw = .latched k ∧ step s = .next t ∧ t.kw = .latched k :=
  ⟨{ ready State.reset 0xFF0A with kw := .latched 0, keys := 0x0001 }, _, 0, fun _ _ => ⟨15, by decide⟩, by decide, rfl,
    by decide⟩

theorem witness_fetch_then_step :
    ∃ (s : State) (i : Instr), s.pending = [] ∧ s.out.loadStatus = .ok ∧ (¬ InRange s.pc ∨ ¬ InRange (s.pc + 1)) ∧
    decodeOp s.fetch.op = .ok i := ⟨withByte { State.reset with pc := 0xFFF } 0xFFF 0x61, .ldImm 1 0, by decide⟩

theorem witness_fetch_then_no_op : ∃ (s : State) (r : Reject), s.pending = [] ∧ s.out.loadStatus = .ok ∧
    (¬ InRange s.pc ∨ ¬ InRange (s.pc + 1)) ∧ decodeOp s.fetch.op = .error r :=
  ⟨{ State.reset with pc := 0x1000 }, .unimplemented 0, by decide⟩

theorem witness_inv_step : ∃ s t : State, s.Inv ∧ step s = .next t :=
  ⟨{ State.reset with pending := [.setKeys 0x0001] }, _,
    ⟨Memory.wf_nil _, fun _ => rfl, (fun _ h => nomatch h), by unfold State.RomStatus; decide⟩, rfl⟩

theorem witness_fault_kept : ∃ s t : State, s.fault.code ≠ .none ∧ (∀ rom rest, s.pending ≠ .load rom :: rest) ∧
    (∀ rest, s.pending ≠ .reload :: rest) ∧ step s = .next t :=
  ⟨{ State.reset with fault := ⟨.keyRange, 1, 2, 3⟩, pending := [.setKeys 0] }, _, by decide, by simp, by simp, rfl⟩

theorem witness_fault_cleared : ∃ s t : State, (∃ rest, s.pending = .reload :: rest) ∧ step s = .next t :=
  ⟨{ State.reset with fault := ⟨.keyRange, 1, 2, 3⟩, pending := [.reload] }, _, ⟨[], rfl⟩, rfl⟩

theorem witness_drw : (15 : Nat) < 16 ∧ (63 : Nat) < 64 ∧ (31 : Nat) < 32 := by decide

/-- A 1 bit of a sprite on a 1 pixel, in the last column of the last row. -/
theorem witness_drw_hit : ∃ s : State, ({ s with fb := Vector.replicate 32 0 } : State).spriteBit 0 1 1 63 31 = true ∧
    s.fb.pixel 63 31 = true :=
  ⟨withByte { withV [(0, 63), (1, 31)] with i := 0x300, fb := State.reset.fb.set 31 (1#64 <<< 63) } 0x300 0x80,
    by decide⟩

theorem witness_drawing_twice : ∃ (x y : Reg) (n : Nat), n < 16 ∧ x ≠ 15 ∧ y ≠ 15 := ⟨14, 14, 15, by decide⟩

theorem witness_drawing_twice_clear : ∀ px py, px < 64 → py < 32 → State.reset.fb.pixel px py = false := by
  intro px py _ hy
  simp [Screen.pixel, State.reset, hy]

theorem witness_dirty :
    ∃ t u : State, exec .cls State.reset.fetch = .next t ∧ exec (.jp 0) State.reset.fetch = .next u :=
  ⟨_, _, rfl, rfl⟩

theorem witness_dirty_unimplemented :
    ∃ (s t : State) (r : Reject), s.pending = [] ∧ decodeOp s.opcodeAt = .error r ∧ step s = .next t :=
  ⟨State.reset, _, .unimplemented 0x0000, by decide, by decide, rfl⟩

theorem witness_call : ∃ s u : State, s.sp.val < 16 ∧ s.sp.val = 15 ∧ u.sp.val = 16 :=
  ⟨{ State.reset with sp := 15 }, { State.reset with sp := 16 }, by decide⟩

theorem witness_ret : ∃ s u : State, 0 < s.sp.val ∧ s.sp.val = 1 ∧ u.sp.val = 0 :=
  ⟨{ State.reset with sp := 1 }, State.reset, by decide⟩

/-- The four cases of a flag-writing form: X and Y each F or not. -/
theorem witness_alu_registers : ∃ x y : Reg, (x ≠ 15 ∧ y ≠ 15) ∧ ∃ z : Reg, (z = 15 ∧ y ≠ 15) ∧ (x ≠ 15 ∧ z = 15) :=
  ⟨14, 14, by decide, 15, by decide⟩

theorem witness_addReg : ∃ (s : State) (a b c : Nat), a = (s.getV 0).toNat ∧ b = (s.getV 1).toNat ∧ a + b = 256 ∧
    c = (if a + b > 255 then 1 else 0) := ⟨withV [(0, 0xFF), (1, 0x01)], 255, 1, 1, by decide⟩

theorem witness_addReg_no_carry :
    ∃ (s : State) (a b c : Nat), a = (s.getV 0).toNat ∧ b = (s.getV 1).toNat ∧ a + b = 255 ∧
    c = (if a + b > 255 then 1 else 0) := ⟨withV [(0, 0xFE), (1, 0x01)], 254, 1, 0, by decide⟩

theorem witness_subReg :
    ∃ (s : State) (a b g : Nat), a = (s.getV 0).toNat ∧ b = (s.getV 1).toNat ∧ g = (if a > b then 1 else 0) ∧ a = b :=
  ⟨withV [(0, 3), (1, 3)], 3, 3, 0, by decide⟩

theorem witness_subnReg :
    ∃ (s : State) (a b g : Nat), a = (s.getV 0).toNat ∧ b = (s.getV 1).toNat ∧ g = (if b > a then 1 else 0) ∧ g = 1 :=
  ⟨withV [(0, 3), (1, 4)], 3, 4, 1, by decide⟩

theorem witness_shr :
    ∃ (s : State) (a f : Nat), a = (s.getV 0).toNat ∧ f = (if s.cfg.shrFlagMask = .lowBit then a % 2 else a % 16) :=
  ⟨withV [(0, 0xFF)], 255, 1, by decide⟩

theorem witness_shr_lowNibble : ∃ (s : State) (a f : Nat), a = (s.getV 0).toNat ∧ s.cfg.shrFlagMask = .lowNibble ∧
    f = (if s.cfg.shrFlagMask = .lowBit then a % 2 else a % 16) :=
  ⟨{ withV [(0, 0xFF)] with cfg := { State.reset.cfg with shrFlagMask := .lowNibble } }, 255, 15, by decide⟩

theorem witness_shl : ∃ (s : State) (a : Nat), a = (s.getV 15).toNat ∧ a = 128 := ⟨withV [(15, 0x80)], 128, by decide⟩

theorem witness_bcd : ∃ s : State, s.MemCanonical ∧ InRange s.i ∧ InRange (s.i + 1) ∧ InRange (s.i + 2) :=
  ⟨{ State.reset with i := 0xFFD }, Memory.wf_nil _, by decide, by decide, by decide⟩

theorem witness_bcd_edge : ∃ s : State, s.MemCanonical ∧ InRange (s.i + 2) ∧ ¬ InRange s.i :=
  ⟨{ State.reset with i := 0xFFFE }, Memory.wf_nil _, by decide, by decide⟩

theorem witness_register_range : ∃ (s : State) (x k : Reg), s.MemCanonical ∧ k ≤ x ∧ InRange (s.indexed k.val) ∧
    ∃ j : Reg, j ≤ x ∧ ¬ InRange (s.indexed j.val) :=
  ⟨{ State.reset with i := 0xFFF }, 15, 0, Memory.wf_nil _, by decide, by decide, 15, by decide, by decide⟩

theorem witness_register_beyond : ∃ x k : Reg, x < k := ⟨14, 15, by decide⟩

theorem witness_load_undoes_store :
    ∃ (s : State) (x : Reg), s.MemCanonical ∧ ∀ k : Reg, k ≤ x → InRange (s.indexed k.val) :=
  ⟨{ State.reset with i := 0xFF0 }, 15, Memory.wf_nil _, by decide⟩

theorem witness_store_is_seen :
    ∃ (s : State) (x : Reg), s.MemCanonical ∧ 1 ≤ x.val ∧ s.i = s.pc ∧ InRange s.pc ∧ InRange (s.pc + 1) :=
  ⟨{ State.reset with i := 0xFFE, pc := 0xFFE }, 1, Memory.wf_nil _, by decide⟩

theorem witness_key_number : ∃ (s : State) (v : Nat), v = (s.getV 0).toNat ∧ v ≤ 15 :=
  ⟨withV [(0, 15)], 15, by decide⟩

theorem witness_key_above : ∃ (s : State) (v : Nat), v = (s.getV 0).toNat ∧ 15 < v := ⟨withV [(0, 16)], 16, by decide⟩

theorem witness_key_wait_none : ∃ s : State, s.kw = .idle ∧ ∀ j : Key, s.keys.getLsbD j.val = false :=
  ⟨State.reset, by decide⟩

theorem witness_key_wait_press : ∃ (s : State) (k : Key), s.kw = .idle ∧ s.keys.getLsbD k.val = true ∧
    ∀ j : Key, j < k → s.keys.getLsbD j.val = false := ⟨{ State.reset with keys := 0x8000 }, 15, by decide⟩

theorem witness_key_wait_hold : ∃ (s : State) (k : Key), s.kw = .latched k ∧ s.keys.getLsbD k.val = true :=
  ⟨{ State.reset with kw := .latched 0, keys := 0x0001 }, 0, by decide⟩

theorem witness_key_wait_release : ∃ (s : State) (k : Key), s.kw = .latched k ∧ s.keys.getLsbD k.val = false :=
  ⟨{ State.reset with kw := .latched 15, keys := 0x7FFF }, 15, by decide⟩

theorem witness_key_wait_runs :
    ∃ (s : State) (x : Reg), s.pending = [] ∧ s.out.loadStatus = .ok ∧ decodeOp s.opcodeAt = .ok (.ldVxK x) ∧
    s.kw = .idle ∧ s.keys = 0 := ⟨ready State.reset 0xFF0A, 15, by decide⟩

theorem witness_key_press_hold_release :
    ∃ (s : State) (x : Reg) (k : Key) (pressed released : BitVec 16) (n : Nat) (rest : List HostOp),
    s.out.loadStatus = .ok ∧ decodeOp s.opcodeAt = .ok (.ldVxK x) ∧ s.kw = .idle ∧ pressed.getLsbD k.val = true ∧
    (∀ j : Key, j < k → pressed.getLsbD j.val = false) ∧ released.getLsbD k.val = false ∧
    s.pending = .setKeys pressed :: (List.replicate (n + 1) .step ++ .setKeys released :: .step :: rest) :=
  ⟨{ ready State.reset 0xF50A with pending := [.setKeys 0x00A0, .step, .step, .setKeys 0x0080, .step, .tick] }, 5, 5,
    0x00A0, 0x0080, 1, [.tick], by decide⟩

theorem witness_tick :
    ∃ (s : State) (rest : List HostOp) (n : Nat), s.pending = .tick :: rest ∧ s.out.loadStatus = .ok ∧ n = s.cfg.ips / 60 :=
  ⟨{ withIps State.reset 179 with pending := [.tick] }, [], 2, by decide⟩

theorem witness_tick_no_steps :
    ∃ (s : State) (rest : List HostOp), s.pending = .tick :: rest ∧ s.out.loadStatus = .ok ∧ s.cfg.ips < 60 :=
  ⟨{ withIps State.reset 59 with pending := [.tick] }, [], by decide⟩

theorem witness_no_step_counts : ∃ s t : State, s.pending = [] ∧ step s = .next t := ⟨State.reset, _, rfl, rfl⟩

theorem witness_frame_index :
    ∃ (i : Instr) (s t : State), exec i s = .next t ∧ (∀ nnn, i ≠ .ldI nnn) ∧ (∀ x, i ≠ .addI x) ∧ ∀ x, i ≠ .ldF x :=
  ⟨.storeRegs 15, State.reset, _, rfl, by simp, by simp, by simp⟩

theorem witness_frame_stack : ∃ (i : Instr) (s t : State), exec i s = .next t ∧ (∀ nnn, i ≠ .call nnn) ∧ i ≠ .ret :=
  ⟨.drw 0 1 15, State.reset, _, rfl, by simp, by simp⟩

theorem witness_frame_stack_in_use : ∃ (i : Instr) (s t : State) (j : Nat), exec i s = .next t ∧ j < s.sp.val :=
  ⟨.call 0x300, { State.reset with sp := 15 }, _, 14, rfl, by decide⟩

theorem witness_frame_display_latch_memory :
    ∃ (i : Instr) (s t : State), exec i s = .next t ∧ i ≠ .cls ∧ (∀ x y n, i ≠ .drw x y n) ∧
    (∀ x, i ≠ .ldVxK x) ∧ (∀ x, i ≠ .ldB x) ∧ (∀ x, i ≠ .storeRegs x) ∧ ∀ x nn, i ≠ .rnd x nn :=
  ⟨.loadRegs 15, State.reset, _, rfl, by simp, by simp, by simp, by simp, by simp, by simp⟩

theorem witness_causes :
    ∃ t u v w : State, exec (.call 0) { State.reset with sp := 16 } = .next t ∧ t.fault.code = .stackOverflow ∧
    exec .ret State.reset = .next u ∧ u.fault.code = .stackUnderflow ∧
    exec (.ldB 0) { State.reset with i := 0x1000 } = .next v ∧ v.fault.code = .addrRange ∧
    exec (.skp 0) (withV [(0, 16)]) = .next w ∧ w.fault.code = .keyRange :=
  ⟨_, _, _, _, rfl, by decide, rfl, by decide, rfl, by decide, rfl, by decide⟩

theorem witness_fault_invisible : ∃ (i : Instr) (s t : State), exec i s = .next t := ⟨.ret, State.reset, _, rfl⟩

theorem witness_st_never_read : ∃ (i : Instr) (s t : State), exec i s = .next t := ⟨.ldVxDt 0, State.reset, _, rfl⟩

theorem witness_self_jump : ∃ s : State, s.AtSelfJump ∧ s.pending = [] ∧ s.out.loadStatus = .ok :=
  ⟨ready State.reset 0x1200, ⟨0x200, by decide⟩, by decide, by decide⟩

end Sys2Proof.Tests
end

section
/-! PROOFS. The frame of the instructions, field by field: who writes I, the stack, the display, the latch, memory and
the draw count (spec 10_state.md R24, R27, R28, R31, R35). -/

namespace Sys2Proof.Machine

open Sys2Proof

/-- A call pushes above the entries in use (R27, R28). -/
theorem State.callTo_stack_below (s : State) (a : Word) {j : Nat} (hj : j < s.sp.val) :
    (s.callTo a).stack[j]? = s.stack[j]? := by
  unfold State.callTo
  split
  · next h => exact Vector.getElem?_set_ne h (by omega)
  · rw [State.raise_stack]

/-- Only `ANNN`, `FX1E` and `FX29` write I (R24, R204). -/
theorem exec_i {i : Instr} {s t : State} (h : exec i s = .next t)
    (hLd : ∀ nnn, i ≠ .ldI nnn) (hAdd : ∀ x, i ≠ .addI x) (hFont : ∀ x, i ≠ .ldF x) : t.i = s.i := by
  cases i with
  | ldI nnn => exact absurd rfl (hLd nnn)
  | addI x => exact absurd rfl (hAdd x)
  | ldF x => exact absurd rfl (hFont x)
  | _ => cases h; simp

/-- Only `2NNN` writes the stack's entries (R28). -/
theorem exec_stack {i : Instr} {s t : State} (h : exec i s = .next t) (hCall : ∀ nnn, i ≠ .call nnn) :
    t.stack = s.stack := by
  cases i with
  | call nnn => exact absurd rfl (hCall nnn)
  | _ => cases h; simp

/-- Only `2NNN` and `00EE` write sp (R27). -/
theorem exec_sp {i : Instr} {s t : State} (h : exec i s = .next t) (hCall : ∀ nnn, i ≠ .call nnn) (hRet : i ≠ .ret) :
    t.sp = s.sp := by
  cases i with
  | call nnn => exact absurd rfl (hCall nnn)
  | ret => exact absurd rfl hRet
  | _ => cases h; simp

/-- No instruction writes a stack entry in use (R28). -/
theorem exec_stack_below {i : Instr} {s t : State} (h : exec i s = .next t) {j : Nat} (hj : j < s.sp.val) :
    t.stack[j]? = s.stack[j]? := by
  by_cases hCall : ∃ nnn, i = .call nnn
  · obtain ⟨nnn, rfl⟩ := hCall
    cases h
    exact State.callTo_stack_below s _ hj
  · rw [exec_stack h (fun nnn hi => hCall ⟨nnn, hi⟩)]

/-- Only `00E0` and `DXYN` write the display (R35). -/
theorem exec_fb {i : Instr} {s t : State} (h : exec i s = .next t) (hCls : i ≠ .cls) (hDrw : ∀ x y n, i ≠ .drw x y n) :
    t.fb = s.fb := by
  cases i with
  | cls => exact absurd rfl hCls
  | drw x y n => exact absurd rfl (hDrw x y n)
  | _ => cases h; simp

/-- Only `FX0A` writes the key-wait latch (R31). -/
theorem exec_kw {i : Instr} {s t : State} (h : exec i s = .next t) (hWait : ∀ x, i ≠ .ldVxK x) : t.kw = s.kw := by
  cases i with
  | ldVxK x => exact absurd rfl (hWait x)
  | _ => cases h; simp

/-- Only `FX33` and `FX55` write memory (20_memory.md R50, R55). -/
theorem exec_mem {i : Instr} {s t : State} (h : exec i s = .next t)
    (hBcd : ∀ x, i ≠ .ldB x) (hStore : ∀ x, i ≠ .storeRegs x) : t.mem = s.mem := by
  cases i with
  | ldB x => exact absurd rfl (hBcd x)
  | storeRegs x => exact absurd rfl (hStore x)
  | _ => cases h; simp

/-- Only `CXNN` takes a random draw (60_exceptions.md R283). -/
theorem exec_draws {i : Instr} {s t : State} (h : exec i s = .next t) (hRnd : ∀ x nn, i ≠ .rnd x nn) :
    t.draws = s.draws := by
  cases i with
  | rnd x nn => exact absurd rfl (hRnd x nn)
  | _ => cases h; simp

/-- Settles O51, by cases on the instruction. -/
theorem onlyIndexInstructionsWriteI : Obligations.OnlyIndexInstructionsWriteI :=
  fun _ _ _ h hLd hAdd hFont => exec_i h hLd hAdd hFont

/-- Settles O52: the two frames, and a call pushes above the entries in use. -/
theorem onlyCallAndRetTouchStack : Obligations.OnlyCallAndRetTouchStack :=
  fun _ _ _ h => ⟨exec_stack h, exec_sp h, fun _ hj => exec_stack_below h hj⟩

/-- Settles O53: a field per lemma; the host's side of the state is `exec_host_frame`. -/
theorem onlyNamedInstructionsWriteDisplayLatchMemory :
    Obligations.OnlyNamedInstructionsWriteDisplayLatchMemory := by
  intro i s t h
  obtain ⟨hPending, hCfg, hKeys, hRom, -⟩ := exec_host_frame h
  exact ⟨exec_fb h, exec_kw h, fun hBcd hStore => State.peek_congr (exec_mem h hBcd hStore) hCfg,
    exec_draws h, hKeys, hCfg, hRom, hPending⟩

end Sys2Proof.Machine
end

section
/-! PROOFS. What no instruction reads: the fault register (spec 10_state.md R33) and the sound timer (R30). Each shared
operation commutes with a change of either (Laws/Exec); here the instructions are put together from them. -/

namespace Sys2Proof.Machine

open Sys2Proof

theorem State.skipIf_withFault (s : State) (f : FaultRecord) (c : Bool) :
    ({ s with fault := f } : State).skipIf c = { s.skipIf c with fault := f } := by
  cases c <;> rfl

/-- A key skip reads the fault register only to record `KeyRange` (R230). -/
theorem State.checkKey_skipIf_withFault (s : State) (f : FaultRecord) (v : Byte) (c : Bool) :
    ∃ g, (({ s with fault := f } : State).checkKey v).skipIf c = { (s.checkKey v).skipIf c with fault := g } := by
  rw [State.checkKey_eq, State.checkKey_eq]
  cases c <;> exact ⟨_, rfl⟩

/-- An instruction does the same whatever the fault register holds; only the register itself may differ after it. -/
theorem exec_withFault {i : Instr} {s t : State} (h : exec i s = .next t) (f : FaultRecord) :
    ∃ g, exec i { s with fault := f } = .next { t with fault := g } := by
  cases i <;> cases h
  case ret => exact ⟨_, congrArg Host.Outcome.next (State.returnFromCall_withFault s f)⟩
  case call nnn => exact ⟨_, congrArg Host.Outcome.next (State.callTo_withFault s f _)⟩
  case storeRegs x => exact ⟨_, congrArg Host.Outcome.next (State.storeUpTo_withFault s f _)⟩
  case loadRegs x => exact ⟨_, congrArg Host.Outcome.next (State.loadUpTo_withFault s f _)⟩
  case ldVxK x => exact ⟨f, congrArg Host.Outcome.next (State.waitKey_withFault s f x)⟩
  case seImm | sneImm | seReg | sneReg => exact ⟨f, congrArg Host.Outcome.next (State.skipIf_withFault s f _)⟩
  case skp | sknp => exact (State.checkKey_skipIf_withFault s f _ _).imp fun _ => congrArg Host.Outcome.next
  case ldB x =>
    simp only [exec, execLdB]
    rw [State.memWrite_withFault s f, State.memWrite_withFault (s.memWrite _ _)]
    exact ⟨_, congrArg Host.Outcome.next (State.memWrite_withFault _ _ _ _)⟩
  case drw x y n =>
    have hRows : (({ s with fault := f } : State).setV Reg.vf 0).spriteRows n = (s.setV Reg.vf 0).spriteRows n :=
      State.spriteRows_withFault (s.setV Reg.vf 0) f n
    simp only [exec, execDrw]
    rw [hRows, State.checkRows_eq, State.checkRows_eq]
    exact ⟨_, rfl⟩
  all_goals exact ⟨f, rfl⟩

/-- Nothing that an instruction does depends on the sound timer, on the operations still to come or on what the tick has
gathered; after it the sound timer may differ. -/
theorem exec_unread {i : Instr} {s t : State} (h : exec i s = .next t) (b : Byte) (p : List HostOp) (d : Bool) :
    ∃ c, exec i (s.unread b p d) = .next (t.unread c p d) := by
  cases i <;> cases h
  case ret => exact ⟨b, congrArg Host.Outcome.next (State.returnFromCall_unread s b p d)⟩
  case call nnn => exact ⟨b, congrArg Host.Outcome.next (State.callTo_unread s b p d _)⟩
  case storeRegs x => exact ⟨b, congrArg Host.Outcome.next (State.storeUpTo_unread s b p d _)⟩
  case loadRegs x => exact ⟨b, congrArg Host.Outcome.next (State.loadUpTo_unread s b p d _)⟩
  case ldVxK x => exact ⟨b, congrArg Host.Outcome.next (State.waitKey_unread s b p d x)⟩
  case seImm | sneImm | seReg | sneReg => exact ⟨b, congrArg Host.Outcome.next (State.skipIf_unread s b p d _)⟩
  case skp | sknp =>
    simp only [exec, execSkp, execSknp]
    rw [State.checkKey_unread, State.skipIf_unread]
    exact ⟨b, rfl⟩
  case ldB x =>
    simp only [exec, execLdB]
    rw [State.memWrite_unread, State.memWrite_unread, State.memWrite_unread]
    exact ⟨b, rfl⟩
  case drw x y n =>
    have hClear : (s.unread b p d).setV Reg.vf 0 = (s.setV Reg.vf 0).unread b p d := rfl
    simp only [exec, execDrw]
    rw [hClear, State.checkRows_unread, State.spriteRows_unread]
    exact ⟨b, rfl⟩
  case ldStVx x => exact ⟨s.getV x, rfl⟩
  all_goals exact ⟨b, rfl⟩

/-- Settles O55: the register is read only by a record into it. -/
theorem faultRegisterIsInvisible : Obligations.FaultRegisterIsInvisible :=
  fun _ _ _ f h => exec_withFault h f

/-- Settles O56: a change of st alone is a change of what is unread, with the other unread fields as they are. -/
theorem soundTimerIsNeverRead : Obligations.SoundTimerIsNeverRead := by
  intro i s t b h
  obtain ⟨hPending, -, -, -, -, hTickDirty, -⟩ := exec_host_frame h
  obtain ⟨c, hc⟩ := exec_unread h b s.pending s.out.tickDirty
  refine ⟨c, hc.trans ?_⟩
  rw [← hPending, ← hTickDirty]
  rfl

end Sys2Proof.Machine
end

section
/-! PROOFS. What a step of the machine and a cycle can do, said once, and what a cycle does at the key wait (spec
10_state.md R32, 45_keys.md R234). -/

namespace Sys2Proof.Machine

open Sys2Proof

/-! ### The cases of a cycle, a tick and a step -/

/-- A cycle executes the opcode at pc or, where it is of no form, marks it (R79, R80). -/
theorem cycle_cases {s t : State} (h : cycle s = .next t) :
    (∃ i, decodeOp s.opcodeAt = .ok i ∧ exec i s.fetch = .next t) ∨
      (∃ r, decodeOp s.opcodeAt = .error r ∧ t = s.fetch.markUnimp) := by
  unfold cycle at h
  rw [State.fetch_op] at h
  split at h
  · next i hd => exact .inl ⟨i, hd, h⟩
  · next r hd => cases h; exact .inr ⟨r, hd, rfl⟩

/-- A tick is its batch of cycles and then the timer update (R270). -/
theorem tick_cases {s t : State} (h : tick s = .next t) :
    ∃ u, batch s.cfg.stepsPerTick { s with out := { s.out with tickDirty := false } } = .next u ∧ t = u.endTick := by
  unfold tick at h
  split at h
  · next u hu => cases h; exact ⟨u, hu, rfl⟩
  · cases h
  · cases h

/-- The operation STEP that completes is a cycle (R281). -/
theorem opStep_eq_cycle {s t : State} (h : opStep s = .next t) : cycle s = .next t := by
  unfold opStep at h
  split at h
  · exact h
  · cases h

/-- The operation TICK that completes is a tick (R281). -/
theorem opTick_eq_tick {s t : State} (h : opTick s = .next t) : tick s = .next t := by
  unfold opTick at h
  split at h
  · exact h
  · cases h

/-- With nothing pending, or STEP next, a step that completes is a cycle (R281, log 1). -/
theorem cycle_of_step {s t : State} (hp : s.pending = [] ∨ ∃ rest, s.pending = .step :: rest) (h : step s = .next t) :
    ∃ p, cycle { s with pending := p } = .next t := by
  obtain hp | ⟨rest, hp⟩ := hp <;> simp only [step, perform, hp] at h
  · exact ⟨s.pending, opStep_eq_cycle h⟩
  · exact ⟨rest, opStep_eq_cycle h⟩

/-- What a step of the machine can do: a cycle, a tick, a load or a change of the keys (R281, R304). -/
theorem step_cases {s t : State} (h : step s = .next t) :
    ∃ p, cycle { s with pending := p } = .next t ∨ tick { s with pending := p } = .next t ∨
      (∃ rom, t = ({ s with pending := p } : State).load rom) ∨ ∃ keys, t = { s with pending := p, keys := keys } := by
  unfold step perform at h
  split at h
  · exact ⟨s.pending, .inl (opStep_eq_cycle h)⟩
  · next rest _ => exact ⟨rest, .inl (opStep_eq_cycle h)⟩
  · next rest _ => exact ⟨rest, .inr (.inl (opTick_eq_tick h))⟩
  · next rom rest _ => cases h; exact ⟨rest, .inr (.inr (.inl ⟨rom, rfl⟩))⟩
  · next rest _ => cases h; exact ⟨rest, .inr (.inr (.inl ⟨s.lastRom, rfl⟩))⟩
  · next keys rest _ => cases h; exact ⟨rest, .inr (.inr (.inr ⟨keys, rfl⟩))⟩

/-! ### The latch over a cycle -/

/-- A LOAD clears the latch (R300). -/
theorem State.load_kw (s : State) (rom : List Byte) : (s.load rom).kw = .idle := by
  unfold State.load
  split <;> rfl

/-- With the latch idle there is nothing to hold. -/
theorem State.latchedAtWait_of_idle {s : State} (h : s.kw = .idle) : s.LatchedAtWait := by
  intro k hk
  rw [h] at hk
  cases hk

/-- The key that the wait leaves latched is pressed, and pc is back at the instruction (R234). -/
theorem State.waitKey_latched {s : State} {x : Reg} {k : Key} (h : (s.waitKey x).kw = .latched k) :
    s.keyDown k = true ∧ (s.waitKey x).pc = s.pc - 2 := by
  unfold State.waitKey at h ⊢
  split at h
  · next hIdle =>
    refine ⟨?_, by simp⟩
    rw [State.rollBack_kw] at h
    unfold State.latchKey at h
    split at h
    · next j hj => cases h; exact List.find?_some hj
    · rw [hIdle] at h; cases h
  · next j hLatched =>
    split at h
    · next hDown =>
      obtain rfl : j = k := by simpa [hLatched] using h
      simp [hDown]
    · cases h

/-- A cycle that ends with key `k` latched found `k` pressed and stays at an `FX0A` (R32, R234). -/
theorem cycle_ends_latched {s t : State} {k : Key} (hs : s.LatchedAtWait) (h : cycle s = .next t)
    (hk : t.kw = .latched k) :
    (∃ x, decodeOp s.opcodeAt = .ok (.ldVxK x)) ∧ s.keyDown k = true ∧ t.pc = s.pc ∧ t.opcodeAt = s.opcodeAt := by
  by_cases hWait : ∃ x, decodeOp s.opcodeAt = .ok (.ldVxK x)
  · refine ⟨hWait, ?_⟩
    obtain ⟨x, hx⟩ := hWait
    simp only [cycle, State.fetch_op, hx, exec, execLdVxK] at h
    cases h
    obtain ⟨hDown, hpc⟩ := State.waitKey_latched hk
    have hpc' : (s.fetch.waitKey x).pc = s.pc := by simp [hpc]
    exact ⟨by simpa [State.keyDown] using hDown, hpc', State.opcodeAt_congr hpc' (by simp) (by simp)⟩
  · have hKept : t.kw = s.kw := by
      obtain ⟨i, hd, he⟩ | ⟨r, -, rfl⟩ := cycle_cases h
      · exact (exec_kw he fun x hi => hWait ⟨x, hi ▸ hd⟩).trans (State.fetch_kw s)
      · simp
    exact absurd (hs k (hKept ▸ hk)) hWait

/-- Every cycle keeps a latched key at an `FX0A` (R32). -/
theorem cycle_keeps_latchedAtWait {s t : State} (hs : s.LatchedAtWait) (h : cycle s = .next t) : t.LatchedAtWait := by
  intro k hk
  obtain ⟨hWait, -, -, hOp⟩ := cycle_ends_latched hs h hk
  rwa [hOp]

/-- So does every step of the machine: a LOAD clears the latch, and the other operations leave pc and memory. -/
theorem step_keeps_latchedAtWait {s t : State} (hs : s.LatchedAtWait) (h : step s = .next t) : t.LatchedAtWait :=
  step_keeps (P := State.LatchedAtWait) (fun _ _ => cycle_keeps_latchedAtWait) (fun _ h => h) (fun _ h => h)
    (fun _ _ h => h) (fun _ _ h => h) (fun _ _ h => h)
    (fun s rom _ => State.latchedAtWait_of_idle (State.load_kw s rom)) hs h

/-! ### The latch over a tick -/

/-- A later state `u` of a tick that began in `s` with key `k` latched, all its cycles seeing the same keys. While `k` is
pressed it stays latched; once released it is not latched again, for a latched key is pressed. So as long as `u` has it
latched, pc has not moved. -/
structure State.WaitsSince (s : State) (k : Key) (u : State) : Prop where
  latch : u.LatchedAtWait
  keys : u.keys = s.keys
  held : s.keyDown k = true → u.kw = .latched k
  stays : u.kw = .latched k → u.pc = s.pc ∧ u.opcodeAt = s.opcodeAt

theorem cycle_keeps_waitsSince {s : State} {k : Key} {u t : State} (hu : s.WaitsSince k u) (h : cycle u = .next t) :
    s.WaitsSince k t := by
  obtain ⟨-, -, hKeys, -⟩ := cycle_host_frame h
  have hDown : u.keyDown k = s.keyDown k := by simp only [State.keyDown, hu.keys]
  refine ⟨cycle_keeps_latchedAtWait hu.latch h, hKeys.trans hu.keys, fun hk => ?_, fun hk => ?_⟩
  · obtain ⟨x, hx⟩ := hu.latch k (hu.held hk)
    obtain ⟨-, ⟨-, hLatched, -⟩ | ⟨hUp, -⟩⟩ := cycle_latched hx (hu.held hk) h
    · exact hLatched
    · simp [hDown, hk] at hUp
  · obtain ⟨-, hPressed, hpc, hOp⟩ := cycle_ends_latched hu.latch h hk
    obtain ⟨hpc', hOp'⟩ := hu.stays (hu.held (hDown ▸ hPressed))
    exact ⟨hpc.trans hpc', hOp.trans hOp'⟩

/-- A key latched before a tick and after it was latched all the while: pc and the opcode there have not changed. -/
theorem tick_stays_while_latched {s t : State} {k : Key} (hs : s.LatchedAtWait) (hk : s.kw = .latched k)
    (h : tick s = .next t) (hk' : t.kw = .latched k) : t.pc = s.pc ∧ t.opcodeAt = s.opcodeAt := by
  obtain ⟨u, hu, rfl⟩ := tick_cases h
  have hStart : s.WaitsSince k { s with out := { s.out with tickDirty := false } } :=
    ⟨hs, rfl, fun _ => hk, fun _ => ⟨rfl, rfl⟩⟩
  have hEnd : s.WaitsSince k u :=
    batch_keeps (fun _ _ => cycle_keeps_waitsSince) (fun _ h => ⟨h.latch, h.keys, h.held, h.stays⟩) hStart hu
  exact hEnd.stays hk'

/-- Over any step of the machine that leaves key `k` latched, pc and the opcode there do not change. -/
theorem step_stays_while_latched {s t : State} {k : Key} (hs : s.LatchedAtWait) (hk : s.kw = .latched k)
    (h : step s = .next t) (hk' : t.kw = .latched k) : t.pc = s.pc ∧ t.opcodeAt = s.opcodeAt := by
  obtain ⟨p, hc | ht | ⟨rom, rfl⟩ | ⟨keys, rfl⟩⟩ := step_cases h
  · obtain ⟨-, -, hStays⟩ := cycle_ends_latched (s := { s with pending := p }) hs hc hk'
    exact hStays
  · exact tick_stays_while_latched (s := { s with pending := p }) hs hk ht hk'
  · rw [State.load_kw] at hk'; cases hk'
  · exact ⟨rfl, rfl⟩

/-- Settles O15: a cycle that ends with a key latched is at an `FX0A`, found the key pressed and did not move pc; over the
cycles of a tick, which see the same keys, a key once released is not latched again. -/
theorem stepKeepsLatchAtWaitInstruction : Obligations.StepKeepsLatchAtWaitInstruction := by
  refine ⟨State.latchedAtWait_of_idle rfl, fun _ _ => step_keeps_latchedAtWait, ?_,
    fun _ _ _ => step_stays_while_latched⟩
  intro s t k hp hIdle h hk
  obtain ⟨p, hc⟩ := cycle_of_step hp h
  have hs : State.LatchedAtWait { s with pending := p } := State.latchedAtWait_of_idle hIdle
  obtain ⟨-, -, hStays⟩ := cycle_ends_latched hs hc hk
  exact hStays

end Sys2Proof.Machine
end

section
/-! PROOFS. Every step keeps the invariant (spec 10_state.md R32 to R34, 60_exceptions.md R262, 70_reset_and_hazards.md
R303): one lemma per part that a cycle keeps it, then the step's. -/

namespace Sys2Proof.Machine

open Sys2Proof

/-! ### Canonical memory -/

/-- No instruction breaks the canonical form: `FX33` and `FX55` write through `memWrite`, the others write no memory. -/
theorem exec_keeps_canonical {i : Instr} {s t : State} (hs : s.MemCanonical) (h : exec i s = .next t) :
    t.MemCanonical := by
  by_cases hBcd : ∃ x, i = .ldB x
  · obtain ⟨x, rfl⟩ := hBcd
    cases h
    exact State.memWrite_canonical (State.memWrite_canonical (State.memWrite_canonical hs _ _) _ _) _ _
  by_cases hStore : ∃ x, i = .storeRegs x
  · obtain ⟨x, rfl⟩ := hStore
    cases h
    exact State.storeUpTo_canonical hs _
  have hMem : t.mem = s.mem := exec_mem h (fun x hi => hBcd ⟨x, hi⟩) (fun x hi => hStore ⟨x, hi⟩)
  obtain ⟨-, hCfg, -⟩ := exec_host_frame h
  rwa [State.MemCanonical, hMem, hCfg]

theorem cycle_keeps_canonical {s t : State} (hs : s.MemCanonical) (h : cycle s = .next t) : t.MemCanonical := by
  have hf : s.fetch.MemCanonical := by simpa [State.MemCanonical] using hs
  obtain ⟨i, -, he⟩ | ⟨r, -, rfl⟩ := cycle_cases h
  · exact exec_keeps_canonical hf he
  · exact hf

/-! ### The fault register -/

theorem State.callTo_fault (s : State) (a : Word) :
    (s.callTo a).fault = s.recordOf .stackOverflow (if s.sp.val < 16 then none else some 16) := by
  unfold State.callTo
  split
  · rfl
  · exact State.raise_fault ..

theorem State.returnFromCall_fault (s : State) :
    s.returnFromCall.fault = s.recordOf .stackUnderflow (if 0 < s.sp.val then none else some 0) := by
  unfold State.returnFromCall
  split
  · rfl
  · exact State.raise_fault ..

/-- The three writes of `FX33` record the first of them that is out of range (R203, R264). -/
theorem State.memWrite_memWrite_memWrite_fault (s : State) (a b c : Word) (u v w : Byte) :
    ∃ o, (((s.memWrite a u).memWrite b v).memWrite c w).fault = s.recordOf .addrRange o := by
  have h₁ := State.memWrite_fault s a u
  have h₂ := (State.memWrite_fault (s.memWrite a u) b v).trans
    (State.recordOf_recordOf (by decide) h₁ (by simp) (by simp))
  exact ⟨_, (State.memWrite_fault _ c w).trans (State.recordOf_recordOf (by decide) h₂ (by simp) (by simp))⟩

/-- All that an instruction does to the fault register is to record a cause, or nothing (R261, R262). -/
theorem exec_records {i : Instr} {s t : State} (h : exec i s = .next t) :
    ∃ c o, c ≠ FaultCode.none ∧ t.fault = s.recordOf c o := by
  cases i <;> cases h
  case ret => exact ⟨_, _, by decide, State.returnFromCall_fault s⟩
  case call nnn => exact ⟨_, _, by decide, State.callTo_fault s _⟩
  case drw x y n => exact ⟨_, _, by decide, State.checkRows_fault (s.setV Reg.vf 0) n⟩
  case skp | sknp => exact ⟨.keyRange, _, by decide, by rw [State.skipIf_fault, State.checkKey_eq]⟩
  case ldB x =>
    obtain ⟨o, ho⟩ := State.memWrite_memWrite_memWrite_fault s s.i (s.indexed 1) (s.indexed 2) (hundreds (s.getV x))
      (tens (s.getV x)) (units (s.getV x))
    exact ⟨_, o, by decide, ho⟩
  case storeRegs x => exact ⟨_, _, by decide, State.storeUpTo_fault s _⟩
  case loadRegs x => exact ⟨_, _, by decide, State.loadUpTo_fault s _⟩
  all_goals exact ⟨.addrRange, none, by decide, by simp [State.recordOf]⟩

/-- Recording a cause keeps the fields of an empty fault register 0: after it the register is as it was, or not empty. -/
theorem State.faultClearWhenNone_of_record {s t : State} {c : FaultCode} {o : Option Word}
    (hs : s.FaultClearWhenNone) (hc : c ≠ .none) (h : t.fault = s.recordOf c o) : t.FaultClearWhenNone := by
  intro hNone
  rw [h] at hNone ⊢
  cases o with
  | none => exact hs hNone
  | some info =>
    unfold State.recordOf at hNone ⊢
    dsimp only at hNone ⊢
    split at hNone
    · exact absurd hNone hc
    · next hOld => exact absurd hNone hOld

theorem cycle_keeps_faultClear {s t : State} (hs : s.FaultClearWhenNone) (h : cycle s = .next t) :
    t.FaultClearWhenNone := by
  have hf : s.fetch.FaultClearWhenNone :=
    State.faultClearWhenNone_of_record (s := { s with pc0 := s.pc, op := s.opcodeAt }) (c := .addrRange) hs (by decide)
      (by rw [State.fetch_eq])
  obtain ⟨i, -, he⟩ | ⟨r, -, rfl⟩ := cycle_cases h
  · obtain ⟨c, o, hc, ho⟩ := exec_records he
    exact State.faultClearWhenNone_of_record hf hc ho
  · exact hf

/-- A LOAD clears the fault register (R262, R300). -/
theorem State.load_fault (s : State) (rom : List Byte) : (s.load rom).fault = .clear := by
  unfold State.load
  split <;> rfl

/-! ### The load status -/

theorem cycle_keeps_romStatus {s t : State} (hs : s.RomStatus) (h : cycle s = .next t) : t.RomStatus := by
  obtain ⟨-, -, -, hRom, hStatus, -⟩ := cycle_host_frame h
  rwa [State.RomStatus, hRom, hStatus]

/-- A LOAD answers OK exactly for the bytes that fit (R303). -/
theorem State.load_romStatus (s : State) (rom : List Byte) : (s.load rom).RomStatus := by
  by_cases hFits : rom.length ≤ romMax
  · rw [State.load_fits s hFits]
    exact iff_of_true rfl hFits
  · rw [State.load_tooLarge s hFits]
    exact iff_of_false LoadStatus.noConfusion hFits

/-! ### The whole invariant -/

/-- Every step keeps memory canonical (log 18). -/
theorem step_keeps_canonical {s t : State} (hs : s.MemCanonical) (h : step s = .next t) : t.MemCanonical :=
  step_keeps (P := State.MemCanonical) (fun _ _ => cycle_keeps_canonical) (fun _ h => h) (fun _ h => h)
    (fun _ _ h => h) (fun _ _ h => h) (fun _ _ h => h) (fun s rom _ => State.load_canonical s rom) hs h

/-- Every step keeps the fields of an empty fault register 0 (R33). -/
theorem step_keeps_faultClear {s t : State} (hs : s.FaultClearWhenNone) (h : step s = .next t) :
    t.FaultClearWhenNone :=
  step_keeps (P := State.FaultClearWhenNone) (fun _ _ => cycle_keeps_faultClear) (fun _ h => h) (fun _ h => h)
    (fun _ _ h => h) (fun _ _ h => h) (fun _ _ h => h) (fun s rom _ _ => State.load_fault s rom) hs h

/-- After every step the load status still says whether the ROM fits (R303). -/
theorem step_keeps_romStatus {s t : State} (hs : s.RomStatus) (h : step s = .next t) : t.RomStatus :=
  step_keeps (P := State.RomStatus) (fun _ _ => cycle_keeps_romStatus) (fun _ h => h) (fun _ h => h)
    (fun _ _ h => h) (fun _ _ h => h) (fun _ _ h => h) (fun s rom _ => State.load_romStatus s rom) hs h

/-- Settles O16, part by part: a cycle keeps each, a LOAD establishes it, and the host's other operations write nothing
that it reads. -/
theorem stepKeepsInvariant : Obligations.StepKeepsInvariant := fun _ _ hs h =>
  { mem := step_keeps_canonical hs.mem h
    fault := step_keeps_faultClear hs.fault h
    latch := step_keeps_latchedAtWait hs.latch h
    rom := step_keeps_romStatus hs.rom h }

end Sys2Proof.Machine
end

section
/-! PROOFS. What the steps keep of memory and what the fetch reads of it (spec 20_memory.md R50 to R58, R64). -/

namespace Sys2Proof.Machine

open Sys2Proof

/-- Settles O14: a cycle keeps the canonical form, for all its writes go through `memWrite`; a LOAD establishes it, and
the host's other operations write no memory. -/
theorem stepKeepsMemoryCanonical : Obligations.StepKeepsMemoryCanonical :=
  fun _ _ => step_keeps_canonical

theorem State.indexed_zero (s : State) : s.indexed 0 = s.i := BitVec.add_zero s.i

theorem State.indexed_one (s : State) : s.indexed 1 = s.i + 1 := rfl

/-- After a store of at least V0, the byte at I is V0 (R205). -/
theorem State.peek_storeUpTo_i {s : State} (hs : s.MemCanonical) {k : Nat} (h0 : 0 < k) (hk : k ≤ 16)
    (hr : InRange s.i) : (s.storeUpTo k).peek s.i = s.getV 0 := by
  rw [← State.indexed_zero] at hr ⊢
  exact State.peek_storeUpTo hs h0 hk hr

/-- After a store of at least V0 and V1, the byte at I + 1 is V1 (R205). -/
theorem State.peek_storeUpTo_i_add_one {s : State} (hs : s.MemCanonical) {k : Nat} (h1 : 1 < k) (hk : k ≤ 16)
    (hr : InRange (s.i + 1)) : (s.storeUpTo k).peek (s.i + 1) = s.getV 1 := by
  rw [← State.indexed_one] at hr ⊢
  exact State.peek_storeUpTo hs h1 hk hr

/-- Settles O41: the store leaves pc, so the fetch reads the bytes at I and I + 1 as the store left them. -/
theorem storeIsSeenByNextFetch : Obligations.StoreIsSeenByNextFetch := by
  intro s x hs hx hi hr0 hr1
  rw [← hi] at hr0 hr1
  have hHigh := State.peek_storeUpTo_i hs (Nat.succ_pos x.val) x.isLt hr0
  have hLow := State.peek_storeUpTo_i_add_one hs (Nat.succ_le_succ hx) x.isLt hr1
  refine ⟨s.storeUpTo (x.val + 1), rfl, ?_⟩
  rw [State.fetch_op, State.opcodeAt, State.storeUpTo_pc, ← hi, hHigh, hLow, opOfBytes]

end Sys2Proof.Machine
end

section
/-! PROOFS. The encoder and the decoder undo each other (spec 30_encoding.md R70 to R74, R84 to R89). -/

namespace Sys2Proof

/-! ### An opcode with the fixed digits of a layout is the layout of its fields -/

theorem layoutNnn_of_opField {op : Word} {p : Digit} (hp : opField op = p) : layoutNnn p (nnnField op) = op := by
  rw [← hp, layoutNnn_fields]

theorem layoutXnn_of_opField {op : Word} {p : Digit} (hp : opField op = p) :
    layoutXnn p (xField op) (nnField op) = op := by
  rw [← hp, layoutXnn_fields]

theorem layoutXnn_of_opField_nnField {op : Word} {p : Digit} {nn : Byte} (hp : opField op = p) (hn : nnField op = nn) :
    layoutXnn p (xField op) nn = op := by
  rw [← hn, layoutXnn_of_opField hp]

theorem layoutXyn_of_opField_nField {op : Word} {p n : Digit} (hp : opField op = p) (hn : nField op = n) :
    layoutXyn p (xField op) (yField op) n = op := by
  rw [← hp, ← hn, layoutXyn_fields]

/-- The layout of `DXYN`, whose row count is a number (R74). -/
theorem layoutXyn_of_opField {op : Word} {p : Digit} (hp : opField op = p) :
    layoutXyn p (xField op) (yField op) (BitVec.ofNat 4 (nField op).toNat) = op := by
  rw [BitVec.ofNat_toNat, BitVec.setWidth_eq, layoutXyn_of_opField_nField hp rfl]

/-! ### From an instruction to its opcode and back -/

/-- Every operand is read back from the field it was written to (R72 to R74). -/
theorem decodeOp_encode {i : Instr} (hi : i.wellFormed = true) : decodeOp (encode i) = .ok i := by
  cases i
  case cls | ret => decide
  case jp | call | ldI | jpV0 => simp [encode, decodeOp]
  case seImm | sneImm | ldImm | addImm | rnd => simp [encode, decodeOp]
  case seReg | sneReg => simp [encode, decodeOp]
  case ldReg | orReg | andReg | xorReg | addReg | subReg | shr | subnReg | shl =>
    simp [encode, decodeOp, decodeGroup8]
  case drw x y n =>
    have hn : n % 16 = n := Nat.mod_eq_of_lt (of_decide_eq_true hi)
    simp [encode, decodeOp, hn]
  case skp | sknp => simp [encode, decodeOp, decodeGroupE]
  case ldVxDt | ldVxK | ldDtVx | ldStVx | addI | ldF | ldB | storeRegs | loadRegs =>
    simp [encode, decodeOp, decodeGroupF]

/-- The two bytes of an opcode assemble to it (R54, R70). -/
@[simp] theorem opOfBytes_extract (op : Word) : opOfBytes (op.extractLsb' 8 8) (op.extractLsb' 0 8) = op := by
  rw [opOfBytes, BitVec.extractLsb'_append_extractLsb'_eq_extractLsb' (by decide)]
  exact BitVec.extractLsb'_eq_self

/-- Settles O5: the fixed digits lead the decoder back to the instruction's own arm, which reads the operands from the
fields they were written to. -/
theorem decodeOfEncode : Obligations.DecodeOfEncode := by
  intro i rest hi
  have hd := decodeOp_encode hi
  refine ⟨hd, ?_⟩
  rw [decodeBytes, opOfBytes_extract, hd]

/-! ### From an opcode to its instruction and back -/

/-- `i` is an instruction with an encoding, and that encoding is `op`. -/
def IsEncodingOf (op : Word) (i : Instr) : Prop := i.wellFormed = true ∧ encode i = op

theorem isEncodingOf_of_decodeGroup0 {op : Word} {i : Instr} (h : decodeGroup0 op = .ok i) : IsEncodingOf op i := by
  unfold decodeGroup0 at h
  split at h <;> cases h <;> next hop => exact ⟨rfl, (BitVec.eq_of_toNat_eq hop).symm⟩

theorem isEncodingOf_of_decodeGroup8 {op : Word} {i : Instr} (hp : opField op = 0x8) (h : decodeGroup8 op = .ok i) :
    IsEncodingOf op i := by
  unfold decodeGroup8 at h
  split at h <;> cases h <;>
    next hn => exact ⟨rfl, layoutXyn_of_opField_nField hp (BitVec.eq_of_toNat_eq hn)⟩

theorem isEncodingOf_of_decodeGroupE {op : Word} {i : Instr} (hp : opField op = 0xE) (h : decodeGroupE op = .ok i) :
    IsEncodingOf op i := by
  unfold decodeGroupE at h
  split at h <;> cases h <;>
    next hn => exact ⟨rfl, layoutXnn_of_opField_nnField hp (BitVec.eq_of_toNat_eq hn)⟩

theorem isEncodingOf_of_decodeGroupF {op : Word} {i : Instr} (hp : opField op = 0xF) (h : decodeGroupF op = .ok i) :
    IsEncodingOf op i := by
  unfold decodeGroupF at h
  split at h <;> cases h <;>
    next hn => exact ⟨rfl, layoutXnn_of_opField_nnField hp (BitVec.eq_of_toNat_eq hn)⟩

/-- The decoder's dispatch: the top digit is the form's first, and the group or the low digit settles the others (R84 to
R86). -/
theorem isEncodingOf_of_decodeOp {op : Word} {i : Instr} (h : decodeOp op = .ok i) : IsEncodingOf op i := by
  unfold decodeOp at h
  split at h
  case h_1 => exact isEncodingOf_of_decodeGroup0 h
  case h_9 hp => exact isEncodingOf_of_decodeGroup8 (BitVec.eq_of_toNat_eq hp) h
  case h_15 hp => exact isEncodingOf_of_decodeGroupE (BitVec.eq_of_toNat_eq hp) h
  case h_16 hp => exact isEncodingOf_of_decodeGroupF (BitVec.eq_of_toNat_eq hp) h
  case h_2 hp | h_3 hp | h_11 hp | h_12 hp =>
    cases h; exact ⟨rfl, layoutNnn_of_opField (BitVec.eq_of_toNat_eq hp)⟩
  case h_4 hp | h_5 hp | h_7 hp | h_8 hp | h_13 hp =>
    cases h; exact ⟨rfl, layoutXnn_of_opField (BitVec.eq_of_toNat_eq hp)⟩
  case h_6 hp | h_10 hp =>
    split at h <;> cases h
    next hn => exact ⟨rfl, layoutXyn_of_opField_nField (BitVec.eq_of_toNat_eq hp) hn⟩
  case h_14 hp =>
    cases h
    exact ⟨decide_eq_true (nField op).isLt, layoutXyn_of_opField (BitVec.eq_of_toNat_eq hp)⟩
  case h_17 => cases h

/-- Settles O6: along every path of the dispatch the fixed digits of the form are the opcode's own and its other digits
are the operands, so the form's layout of them is the opcode again. -/
theorem encodeOfDecode : Obligations.EncodeOfDecode :=
  fun _ _ => isEncodingOf_of_decodeOp

/-- Every arm of the dispatch that rejects an opcode names that opcode (R79). -/
theorem eq_unimplemented_of_decodeOp {op : Word} {r : Reject} (h : decodeOp op = .error r) : r = .unimplemented op := by
  unfold decodeOp decodeGroup0 decodeGroup8 decodeGroupE decodeGroupF at h
  repeat' split at h
  all_goals cases h <;> rfl

/-- Settles O4: the decoder evaluates each of the words. -/
theorem specWordsDecode : Obligations.SpecWordsDecode :=
  ⟨rfl, rfl, rfl, rfl, rfl, rfl, rfl, rfl, rfl, rfl, rfl⟩

end Sys2Proof
end

section
/-! PROOFS. The rows of the opcode table: an opcode decodes to the form whose row it matches, and it matches one row only
(spec 30_encoding.md R80, R86, R89). -/

namespace Sys2Proof

open Sys2Proof.Machine

/-! ### The row of an instruction -/

/-- The instruction of the form of `i` with the fields of `op` for operands (R73). -/
def Instr.withFields (i : Instr) (op : Word) : Instr :=
  match i with
  | .cls => .cls
  | .ret => .ret
  | .jp _ => .jp (nnnField op)
  | .call _ => .call (nnnField op)
  | .seImm _ _ => .seImm (xField op) (nnField op)
  | .sneImm _ _ => .sneImm (xField op) (nnField op)
  | .seReg _ _ => .seReg (xField op) (yField op)
  | .ldImm _ _ => .ldImm (xField op) (nnField op)
  | .addImm _ _ => .addImm (xField op) (nnField op)
  | .ldReg _ _ => .ldReg (xField op) (yField op)
  | .orReg _ _ => .orReg (xField op) (yField op)
  | .andReg _ _ => .andReg (xField op) (yField op)
  | .xorReg _ _ => .xorReg (xField op) (yField op)
  | .addReg _ _ => .addReg (xField op) (yField op)
  | .subReg _ _ => .subReg (xField op) (yField op)
  | .shr _ _ => .shr (xField op) (yField op)
  | .subnReg _ _ => .subnReg (xField op) (yField op)
  | .shl _ _ => .shl (xField op) (yField op)
  | .sneReg _ _ => .sneReg (xField op) (yField op)
  | .ldI _ => .ldI (nnnField op)
  | .jpV0 _ => .jpV0 (nnnField op)
  | .rnd _ _ => .rnd (xField op) (nnField op)
  | .drw _ _ _ => .drw (xField op) (yField op) (nField op).toNat
  | .skp _ => .skp (xField op)
  | .sknp _ => .sknp (xField op)
  | .ldVxDt _ => .ldVxDt (xField op)
  | .ldVxK _ => .ldVxK (xField op)
  | .ldDtVx _ => .ldDtVx (xField op)
  | .ldStVx _ => .ldStVx (xField op)
  | .addI _ => .addI (xField op)
  | .ldF _ => .ldF (xField op)
  | .ldB _ => .ldB (xField op)
  | .storeRegs _ => .storeRegs (xField op)
  | .loadRegs _ => .loadRegs (xField op)

theorem tableRow_withFields (i : Instr) (op : Word) : tableRow (i.withFields op) = tableRow i := by
  cases i <;> rfl

theorem withFields_wellFormed (i : Instr) (op : Word) : (i.withFields op).wellFormed = true := by
  cases i
  case drw => exact decide_eq_true (nField op).isLt
  all_goals rfl

/-- An opcode that matches the row of a form is the form's encoding of its own fields (R86). -/
theorem encode_withFields {i : Instr} {op : Word} (h : op &&& (tableRow i).mask = (tableRow i).bits) :
    encode (i.withFields op) = op := by
  cases i <;> dsimp only [tableRow] at h
  case cls | ret => exact h.symm.trans (BitVec.and_allOnes (x := op))
  case jp | call | ldI | jpV0 => exact layoutNnn_of_opField (opField_of_mask h rfl)
  case seImm | sneImm | ldImm | addImm | rnd => exact layoutXnn_of_opField (opField_of_mask h rfl)
  case seReg | sneReg | ldReg | orReg | andReg | xorReg | addReg | subReg | shr | subnReg | shl =>
    exact layoutXyn_of_opField_nField (opField_of_mask h rfl) (nField_of_mask h rfl)
  case drw => exact layoutXyn_of_opField (opField_of_mask h rfl)
  case skp | sknp | ldVxDt | ldVxK | ldDtVx | ldStVx | addI | ldF | ldB | storeRegs | loadRegs =>
    exact layoutXnn_of_opField_nnField (opField_of_mask h rfl) (nnField_of_mask h rfl)

/-- The encoding line of every form: its row's opcodes decode to it, with their own fields (R80, R89). At one form, as
`encodedAs_withFields (.jp 0)`, it is that form's `EncodedAs` line by definition. -/
theorem encodedAs_withFields (i : Instr) : EncodedAs (tableRow i).bits (tableRow i).mask i.withFields := by
  intro op h
  calc decodeOp op
      _ = decodeOp (encode (i.withFields op)) := by rw [encode_withFields h]
      _ = .ok (i.withFields op) := decodeOp_encode (withFields_wellFormed i op)

/-! ### The rows of the table -/

/-- The encoding of every instruction matches the instruction's row, one of the table's (R89). -/
theorem tableForm : (i : Instr) → Laws.TableForm.Statement i
  | .cls => Laws.TableForm.cls
  | .ret => Laws.TableForm.ret
  | .jp nnn => Laws.TableForm.jp nnn
  | .call nnn => Laws.TableForm.call nnn
  | .seImm x nn => Laws.TableForm.seImm x nn
  | .sneImm x nn => Laws.TableForm.sneImm x nn
  | .seReg x y => Laws.TableForm.seReg x y
  | .ldImm x nn => Laws.TableForm.ldImm x nn
  | .addImm x nn => Laws.TableForm.addImm x nn
  | .ldReg x y => Laws.TableForm.ldReg x y
  | .orReg x y => Laws.TableForm.orReg x y
  | .andReg x y => Laws.TableForm.andReg x y
  | .xorReg x y => Laws.TableForm.xorReg x y
  | .addReg x y => Laws.TableForm.addReg x y
  | .subReg x y => Laws.TableForm.subReg x y
  | .shr x y => Laws.TableForm.shr x y
  | .subnReg x y => Laws.TableForm.subnReg x y
  | .shl x y => Laws.TableForm.shl x y
  | .sneReg x y => Laws.TableForm.sneReg x y
  | .ldI nnn => Laws.TableForm.ldI nnn
  | .jpV0 nnn => Laws.TableForm.jpV0 nnn
  | .rnd x nn => Laws.TableForm.rnd x nn
  | .drw x y n => Laws.TableForm.drw x y n
  | .skp x => Laws.TableForm.skp x
  | .sknp x => Laws.TableForm.sknp x
  | .ldVxDt x => Laws.TableForm.ldVxDt x
  | .ldVxK x => Laws.TableForm.ldVxK x
  | .ldDtVx x => Laws.TableForm.ldDtVx x
  | .ldStVx x => Laws.TableForm.ldStVx x
  | .addI x => Laws.TableForm.addI x
  | .ldF x => Laws.TableForm.ldF x
  | .ldB x => Laws.TableForm.ldB x
  | .storeRegs x => Laws.TableForm.storeRegs x
  | .loadRegs x => Laws.TableForm.loadRegs x

/-- One instruction of each form, in the order of the table. -/
def forms : List Instr := [
  .cls, .ret, .jp 0, .call 0, .seImm 0 0, .sneImm 0 0, .seReg 0 0, .ldImm 0 0, .addImm 0 0, .ldReg 0 0, .orReg 0 0,
  .andReg 0 0, .xorReg 0 0, .addReg 0 0, .subReg 0 0, .shr 0 0, .subnReg 0 0, .shl 0 0, .sneReg 0 0, .ldI 0, .jpV0 0,
  .rnd 0 0, .drw 0 0 0, .skp 0, .sknp 0, .ldVxDt 0, .ldVxK 0, .ldDtVx 0, .ldStVx 0, .addI 0, .ldF 0, .ldB 0,
  .storeRegs 0, .loadRegs 0]

theorem opcodeTable_eq_map_tableRow : opcodeTable = forms.map tableRow := rfl

/-- Every row of the table is the row of a form. -/
theorem exists_tableRow_eq {r : TableRow} (hr : r ∈ opcodeTable) : ∃ i, tableRow i = r := by
  rw [opcodeTable_eq_map_tableRow] at hr
  obtain ⟨i, -, hi⟩ := List.mem_map.1 hr
  exact ⟨i, hi⟩

/-- An opcode that matches a row decodes to an instruction of that row (R86). -/
theorem decodeOp_of_row {op : Word} {r : TableRow} (hr : r ∈ opcodeTable) (h : op &&& r.mask = r.bits) :
    ∃ i, decodeOp op = .ok i ∧ tableRow i = r := by
  obtain ⟨i, rfl⟩ := exists_tableRow_eq hr
  exact ⟨i.withFields op, encodedAs_withFields i op h, tableRow_withFields i op⟩

/-- An opcode that decodes matches the row of its instruction, a row of the table (R86). -/
theorem row_of_decodeOp {op : Word} {i : Instr} (h : decodeOp op = .ok i) :
    tableRow i ∈ opcodeTable ∧ op &&& (tableRow i).mask = (tableRow i).bits := by
  obtain ⟨-, rfl⟩ := isEncodingOf_of_decodeOp h
  obtain ⟨hHolds, hMem⟩ := tableForm i
  exact ⟨hMem, eq_of_beq hHolds⟩

/-- No two rows of the table overlap: an opcode has one decoding, and the decoding has one row (R86). -/
theorem row_unique {op : Word} {r q : TableRow} (hr : r ∈ opcodeTable) (hq : q ∈ opcodeTable)
    (h : op &&& r.mask = r.bits) (h' : op &&& q.mask = q.bits) : r = q := by
  obtain ⟨i, hi, rfl⟩ := decodeOp_of_row hr h
  obtain ⟨j, hj, rfl⟩ := decodeOp_of_row hq h'
  rw [Except.ok.inj (hi.symm.trans hj)]

/-- A well-formed instruction is decoded from its encoding and from no other opcode. -/
theorem decodeOp_eq_ok_iff {op : Word} {i : Instr} (hi : i.wellFormed = true) :
    decodeOp op = .ok i ↔ op = encode i :=
  ⟨fun h => (isEncodingOf_of_decodeOp h).2.symm, fun h => h ▸ decodeOp_encode hi⟩

theorem nField_of_decodeOp_seReg {op : Word} {x y : Reg} (h : decodeOp op = .ok (.seReg x y)) : nField op = 0 := by
  rw [(decodeOp_eq_ok_iff rfl).1 h]
  exact nField_layoutXyn _ x y 0

theorem nField_of_decodeOp_sneReg {op : Word} {x y : Reg} (h : decodeOp op = .ok (.sneReg x y)) : nField op = 0 := by
  rw [(decodeOp_eq_ok_iff rfl).1 h]
  exact nField_layoutXyn _ x y 0

/-- Settles O7: an opcode that decodes is the encoding of its instruction, which matches the instruction's row; and an
opcode that matches a row decodes to the row's form, so rows that share an opcode are one row. -/
theorem opcodeMatchesAtMostOneForm : Obligations.OpcodeMatchesAtMostOneForm := by
  refine ⟨fun op => ⟨?_, ?_⟩, fun _ _ h => (row_of_decodeOp h).2, fun _ _ hr _ hq h h' => row_unique hr hq h h',
    fun _ => decodeOp_eq_ok_iff rfl, fun _ => decodeOp_eq_ok_iff rfl, fun _ _ _ => nField_of_decodeOp_seReg,
    fun _ _ _ => nField_of_decodeOp_sneReg, by decide, by decide, by decide⟩
  · rintro ⟨i, h⟩
    exact ⟨tableRow i, row_of_decodeOp h⟩
  · rintro ⟨r, hr, h⟩
    obtain ⟨i, hi, -⟩ := decodeOp_of_row hr h
    exact ⟨i, hi⟩

end Sys2Proof
end

section
/-! PROOFS. A step of one instruction: the fetch, inside memory and out of range, and the decoded instruction or the no-op
that follows (spec 30_encoding.md R79 to R82). -/

namespace Sys2Proof.Machine

open Sys2Proof

/-! ### A cycle, by what the opcode at pc decodes to -/

theorem cycle_of_decoded {s : State} {i : Instr} (h : decodeOp s.opcodeAt = .ok i) : cycle s = exec i s.fetch := by
  rw [cycle, State.fetch_op, h]

theorem cycle_of_rejected {s : State} {r : Reject} (h : decodeOp s.opcodeAt = .error r) :
    cycle s = .next s.fetch.markUnimp := by
  rw [cycle, State.fetch_op, h]

/-- With STEP next, or nothing pending and nothing left over, a step is a cycle without that STEP (R281, log 1). -/
theorem step_eq_cycle {s : State} {rest : List HostOp} (hl : s.out.loadStatus = .ok)
    (hp : (s.pending = [] ∧ rest = []) ∨ s.pending = .step :: rest) : step s = cycle { s with pending := rest } := by
  obtain ⟨hp, rfl⟩ | hp := hp
  · rw [step_of_nil hp hl, ← hp]
  · exact step_of_step hp hl

/-- Such a step executes the opcode at pc (R80, R81). -/
theorem step_of_decoded {s : State} {rest : List HostOp} {i : Instr} (hl : s.out.loadStatus = .ok)
    (hp : (s.pending = [] ∧ rest = []) ∨ s.pending = .step :: rest) (hd : decodeOp s.opcodeAt = .ok i) :
    step s = exec i ({ s with pending := rest } : State).fetch := by
  rw [step_eq_cycle hl hp]
  exact cycle_of_decoded hd

/-- Or it only fetches it and marks it (R79). -/
theorem step_of_rejected {s : State} {rest : List HostOp} {r : Reject} (hl : s.out.loadStatus = .ok)
    (hp : (s.pending = [] ∧ rest = []) ∨ s.pending = .step :: rest) (hd : decodeOp s.opcodeAt = .error r) :
    step s = .next { s.fetch with pending := rest, out := { s.fetch.out with unimp := true } } := by
  rw [step_eq_cycle hl hp]
  have h := cycle_of_rejected (s := { s with pending := rest }) hd
  rwa [State.fetch_withPending s rest] at h

/-! ### A decoded instruction -/

/-- Two bytes decode as the opcode they assemble to (R70). -/
theorem decodeOp_of_decodeBytes {hi lo : Byte} {i : Instr} {rest : List Byte}
    (h : decodeBytes [hi, lo] = .ok (i, rest)) : decodeOp (opOfBytes hi lo) = .ok i := by
  rw [decodeBytes] at h
  split at h <;> cases h
  assumption

/-- Settles O1: a step with STEP next is a cycle, and a cycle executes what the two bytes at pc decode to. -/
theorem stepRunsDecodedInstruction : Obligations.StepRunsDecodedInstruction := by
  intro s i rest hl _ hb
  have hd : decodeOp s.opcodeAt = .ok i := decodeOp_of_decodeBytes hb
  refine ⟨fun hp => ?_, fun hp => ?_, State.fetch_inRange⟩
  · rw [step_of_nil hp hl, cycle_of_decoded hd]
  · exact step_of_decoded hl (.inr hp) hd

/-! ### An opcode of no form -/

/-- Settles O3: the decoder rejects the opcode by name, and the cycle only fetches and marks it; a fetch inside memory
records no fault. -/
theorem unimplementedOpcodeIsNoOp : Obligations.UnimplementedOpcodeIsNoOp := by
  refine ⟨by decide, fun s r rest hp hl hd => ?_⟩
  have hStep : step s = .next { s.fetch with pending := rest, out := { s.out with dirty := false, unimp := true } } := by
    rw [step_of_rejected hl hp hd, State.fetch_out]
  refine ⟨eq_unimplemented_of_decodeOp hd, hStep, fun h h' => ?_⟩
  rw [hStep, State.fetch_inRange h h']

/-! ### A fetch out of range -/

/-- The read of a byte already answers 0x00 out of range (R52). -/
theorem State.ite_inRange_peek (s : State) (a : Word) : (if InRange a then s.peek a else 0) = s.peek a := by
  unfold State.peek
  split <;> rfl

/-- The first address out of range of the two bytes at pc (R82, R264). -/
theorem firstOutOfRange_pair {a b : Word} (h : ¬ InRange a ∨ ¬ InRange b) :
    ((if InRange a then none else some a).or (if InRange b then none else some b)) =
      some (if InRange a then b else a) := by
  by_cases ha : InRange a
  · have hb : ¬ InRange b := h.resolve_left (not_not_intro ha)
    rw [if_pos ha, if_neg hb, if_pos ha, Option.none_or]
  · rw [if_neg ha, if_neg ha, Option.some_or]

/-- A fetch with a byte out of range differs from one inside memory in the fault register only (R82). -/
theorem State.fetch_outOfRange {s : State} (h : ¬ InRange s.pc ∨ ¬ InRange (s.pc + 1)) :
    s.fetch = { s with
      pc0 := s.pc, op := s.opcodeAt, pc := s.pc + 2, out := { s.out with dirty := false, unimp := false }
      fault := if s.fault.code = .none then
          { code := .addrRange, pc := s.pc, op := s.opcodeAt, info := if InRange s.pc then s.pc + 1 else s.pc }
        else s.fault } := by
  rw [State.fetch_eq, firstOutOfRange_pair h]
  rfl

/-- The record of such a fetch, where none stands (R82, R262). -/
theorem State.fetch_fault_outOfRange {s : State} (h : ¬ InRange s.pc ∨ ¬ InRange (s.pc + 1))
    (hf : s.fault.code = .none) : s.fetch.fault =
      { code := .addrRange, pc := s.pc, op := s.opcodeAt, info := if InRange s.pc then s.pc + 1 else s.pc } := by
  rw [State.fetch_outOfRange h, if_pos hf]

theorem State.peek_outOfRange (s : State) {a : Word} (h : ¬ InRange a) : s.peek a = 0 := by
  rw [State.peek, if_neg h]

/-- Settles O2: the reads of the fetch answer 0x00 out of range, its record is that of the first such address, and the
cycle goes on with the opcode so assembled. -/
theorem fetchOutOfRangeRecordsFirstAddress : Obligations.FetchOutOfRangeRecordsFirstAddress := by
  refine ⟨fun s h => ?_, fun s hp hl _ => ⟨fun i hd => ?_, fun r hd => ?_⟩,
    fun s rest hp hl _ => ⟨fun i hd => ?_, fun r hd => ?_⟩, fun s hpc hf => ?_, fun s hpc hf => ?_⟩
  · rw [s.ite_inRange_peek, s.ite_inRange_peek]
    exact State.fetch_outOfRange h
  · rw [State.fetch_op] at hd
    rw [step_of_nil hp hl, cycle_of_decoded hd]
  · rw [State.fetch_op] at hd
    rw [step_of_nil hp hl, cycle_of_rejected hd, State.markUnimp]
  · rw [State.fetch_op] at hd
    rw [step_of_decoded hl (.inr hp) hd, State.fetch_withPending s rest]
  · rw [State.fetch_op] at hd
    exact step_of_rejected hl (.inr hp) hd
  · have hIn : InRange s.pc := by rw [hpc]; decide
    have hOut : ¬ InRange (s.pc + 1) := by rw [hpc]; decide
    have hop : s.opcodeAt = s.peek 0xFFF ++ (0 : Byte) := by
      rw [State.opcodeAt, State.peek_outOfRange s hOut, hpc, opOfBytes]
    refine ⟨by rw [State.fetch_op, hop], ?_⟩
    rw [State.fetch_fault_outOfRange (.inr hOut) hf, if_pos hIn, hop, hpc]
    rfl
  · have hOut : ¬ InRange s.pc := by rw [hpc]; decide
    have hOut' : ¬ InRange (s.pc + 1) := by rw [hpc]; decide
    have hop : s.opcodeAt = 0x0000 := by
      rw [State.opcodeAt, State.peek_outOfRange s hOut, State.peek_outOfRange s hOut', opOfBytes]
      rfl
    refine ⟨by rw [State.fetch_op, hop], by decide, ?_⟩
    rw [State.fetch_fault_outOfRange (.inl hOut) hf, if_neg hOut, hop, hpc]

end Sys2Proof.Machine
end

section
/-! PROOFS. The display instructions: the whole effect of `00E0` and `DXYN`, drawing a sprite twice, and which
instructions set `dirty` (spec 40_display.md R100 to R105). -/

namespace Sys2Proof.Machine

open Sys2Proof

/-! ### `00E0` -/

theorem exec_cls (s : State) :
    exec .cls s = .next { s with fb := Vector.replicate 32 0, out := { s.out with dirty := true } } := rfl

@[simp] theorem Screen.pixel_replicate_zero (px py : Nat) :
    Screen.pixel (Vector.replicate 32 0) px py = false := by
  unfold Screen.pixel
  split
  · rw [Vector.getElem_replicate]
    exact BitVec.getLsbD_zero
  · rfl

/-- Settles O18: the state after `00E0`, read off its whole effect. -/
theorem clsClearsDisplay : Obligations.ClsClearsDisplay :=
  ⟨encodedAs_withFields .cls, fun s =>
    ⟨_, exec_cls s, fun _ _ => Screen.pixel_replicate_zero _ _, fun _ => rfl, rfl⟩⟩

/-! ### The flag and VF -/

theorem flagOf_eq_zero_or_one (b : Bool) : flagOf b = 0 ∨ flagOf b = 1 := by
  cases b
  · exact .inl rfl
  · exact .inr rfl

theorem flagOf_eq_one_iff (b : Bool) : flagOf b = 1 ↔ b = true := by
  cases b <;> decide

/-! ### The sprite -/

/-- The rows of a sprite depend on I and memory only (R101). -/
theorem State.spriteRows_congr {s t : State} (hi : t.i = s.i) (hm : t.mem = s.mem) (hc : t.cfg = s.cfg) (n : Nat) :
    t.spriteRows n = s.spriteRows n := by
  induction n with
  | zero => rfl
  | succ n ih => rw [State.spriteRows, State.spriteRows, ih, State.indexed_congr hi, State.peek_congr hm hc]

/-- The sprite's bit at a pixel depends on I, memory and the origin's registers only (R101, R102). -/
theorem State.spriteBit_congr {s t : State} {x y : Reg} (hi : t.i = s.i) (hm : t.mem = s.mem) (hc : t.cfg = s.cfg)
    (hx : t.getV x = s.getV x) (hy : t.getV y = s.getV y) (n px py : Nat) :
    t.spriteBit x y n px py = s.spriteBit x y n px py := by
  simp only [State.spriteBit, hx, hy, State.indexed_congr hi, State.peek_congr hm hc]

/-- The bit that the rows read from memory hold for a pixel: the sprite's bit there (R101). -/
theorem State.spriteRows_bit (s : State) (x y : Reg) (n px : Nat) {py : Nat} (hy : py < 32) :
    (decide ((s.getV x).toNat % 64 ≤ px ∧ px < (s.getV x).toNat % 64 + 8 ∧ (s.getV y).toNat % 32 ≤ py ∧
        py < (s.getV y).toNat % 32 + (s.spriteRows n).length ∧ py < 32) &&
      (((s.spriteRows n)[py - (s.getV y).toNat % 32]?).getD 0).getLsbD (7 - (px - (s.getV x).toNat % 64))) =
    s.spriteBit x y n px py := by
  simp only [State.spriteBit, State.spriteRows_length, hy, and_true]
  by_cases hArea : (s.getV x).toNat % 64 ≤ px ∧ px < (s.getV x).toNat % 64 + 8 ∧ (s.getV y).toNat % 32 ≤ py ∧
      py < (s.getV y).toNat % 32 + n
  · rw [State.spriteRows_getD s n _ (by omega)]
  · rw [decide_eq_false hArea, Bool.false_and, Bool.false_and]

/-! ### `DXYN` -/

/-- The screen that `DXYN` leaves, and whether a drawn 1 bit met a 1 pixel (R102). -/
def State.drawSprite (s : State) (x y : Reg) (n : Nat) : Screen × Bool :=
  drawRows ((s.getV x).toNat % 64) ((s.getV y).toNat % 32) (s.spriteRows n) (s.fb, false)

/-- The state that `DXYN` leaves (R102). -/
def State.afterDrw (s : State) (x y : Reg) (n : Nat) : State :=
  ({ s with
      fb := (s.drawSprite x y n).1
      fault := s.recordOf .addrRange (s.firstOutOfRange n) } : State).setV Reg.vf (flagOf (s.drawSprite x y n).2)
    |>.markDirty

/-- The whole effect of `DXYN`: clearing VF before the rows are read changes neither the rows nor what is recorded. -/
theorem exec_drw (s : State) (x y : Reg) (n : Nat) : exec (.drw x y n) s = .next (s.afterDrw x y n) := by
  have hRows : (s.setV Reg.vf 0).spriteRows n = s.spriteRows n :=
    State.spriteRows_congr (s := s) (t := s.setV Reg.vf 0) rfl rfl rfl n
  have hFault : (s.setV Reg.vf 0).recordOf .addrRange ((s.setV Reg.vf 0).firstOutOfRange n) =
      s.recordOf .addrRange (s.firstOutOfRange n) := by
    rw [State.firstOutOfRange_congr (State.setV_i s _ _)]
    exact State.recordOf_congr rfl rfl rfl _ _
  simp only [exec, execDrw]
  rw [hRows, State.checkRows_eq, hFault]
  simp only [State.afterDrw, State.setV, Vector.set_set]
  rfl

section
variable (s : State) (x y : Reg) (n : Nat)

/-- Each pixel becomes the old one XOR the sprite's bit there (R102). -/
theorem State.afterDrw_pixel {px py : Nat} (hx : px < 64) (hy : py < 32) :
    (s.afterDrw x y n).fb.pixel px py = (s.fb.pixel px py ^^ s.spriteBit x y n px py) := by
  rw [← State.spriteRows_bit s x y n px hy]
  exact drawRows_pixel _ _ _ _ px py hx

/-- VF is the collision flag, 0 or 1 (R102). -/
theorem State.afterDrw_vf : (s.afterDrw x y n).getV 15 = flagOf (s.drawSprite x y n).2 :=
  State.getV_setV_same _ Reg.vf _

/-- No other register is written (R102). -/
theorem State.afterDrw_getV_other {r : Reg} (hr : r ≠ 15) : (s.afterDrw x y n).getV r = s.getV r :=
  State.getV_setV_other _ _ hr.symm

/-- The sprite collides when one of its 1 bits on the display meets a 1 pixel (R102, R103). -/
theorem State.drawSprite_hit : (s.drawSprite x y n).2 = true ↔
    ∃ px py, px < 64 ∧ py < 32 ∧ s.spriteBit x y n px py = true ∧ s.fb.pixel px py = true := by
  rw [State.drawSprite, drawRows_hit, or_iff_right Bool.false_ne_true]
  refine exists_congr fun px => exists_congr fun py => and_congr_right fun _ => and_congr_right fun hy => ?_
  rw [← State.spriteRows_bit s x y n px hy, Bool.and_eq_true, decide_eq_true_iff]
  tauto

/-- VF is 1 exactly when a drawn 1 bit met a 1 pixel (R102). -/
theorem State.afterDrw_vf_eq_one : (s.afterDrw x y n).getV 15 = 1 ↔
    ∃ px py, px < 64 ∧ py < 32 ∧ s.spriteBit x y n px py = true ∧ s.fb.pixel px py = true := by
  rw [State.afterDrw_vf, flagOf_eq_one_iff, State.drawSprite_hit]

end

/-- Settles O19: the state after `DXYN`, part by part. -/
theorem drwXorsClippedSprite : Obligations.DrwXorsClippedSprite := by
  refine ⟨encodedAs_withFields (.drw 0 0 0), fun s x y n _ => ⟨s.afterDrw x y n, exec_drw s x y n, ?_⟩⟩
  refine ⟨fun px py hx hy => s.afterDrw_pixel x y n hx hy, ?_, s.afterDrw_vf_eq_one x y n,
    fun _ hr => s.afterDrw_getV_other x y n hr, rfl, fun _ => rfl, rfl⟩
  rw [State.afterDrw_vf]
  exact flagOf_eq_zero_or_one _

/-! ### Drawing twice -/

/-- A sprite whose origin is not in VF is the same after it has been drawn (R104). -/
theorem State.afterDrw_spriteBit (s : State) {x y : Reg} (hx : x ≠ 15) (hy : y ≠ 15) (n px py : Nat) :
    (s.afterDrw x y n).spriteBit x y n px py = s.spriteBit x y n px py :=
  State.spriteBit_congr (s := s) (t := s.afterDrw x y n) rfl rfl rfl (s.afterDrw_getV_other x y n hx)
    (s.afterDrw_getV_other x y n hy) n px py

/-- Every pixel is XORed with the same bit twice (R104). -/
theorem State.afterDrw_afterDrw_fb (s : State) {x y : Reg} (hx : x ≠ 15) (hy : y ≠ 15) (n : Nat) :
    ((s.afterDrw x y n).afterDrw x y n).fb = s.fb := by
  refine Screen.ext_pixel fun px py hpx hpy => ?_
  rw [State.afterDrw_pixel _ x y n hpx hpy, State.afterDrw_pixel _ x y n hpx hpy, s.afterDrw_spriteBit hx hy,
    Bool.xor_assoc, Bool.xor_self, Bool.xor_false]

/-- On a clear display nothing is met (R102). -/
theorem State.afterDrw_vf_of_clear {s : State} (hClear : ∀ px py, px < 64 → py < 32 → s.fb.pixel px py = false)
    (x y : Reg) (n : Nat) : (s.afterDrw x y n).getV 15 = 0 := by
  refine (s.afterDrw_vf x y n ▸ flagOf_eq_zero_or_one _).resolve_right fun hOne => ?_
  obtain ⟨px, py, hpx, hpy, -, hPixel⟩ := (s.afterDrw_vf_eq_one x y n).1 hOne
  exact Bool.false_ne_true ((hClear px py hpx hpy).symm.trans hPixel)

/-- From a clear display the pixels that the second draw meets are the ones the first set: the sprite's own (R104). -/
theorem State.afterDrw_afterDrw_vf_of_clear {s : State}
    (hClear : ∀ px py, px < 64 → py < 32 → s.fb.pixel px py = false) {x y : Reg} (hx : x ≠ 15) (hy : y ≠ 15) (n : Nat) :
    ((s.afterDrw x y n).afterDrw x y n).getV 15 = 1 ↔
      ∃ px py, px < 64 ∧ py < 32 ∧ s.spriteBit x y n px py = true := by
  rw [State.afterDrw_vf_eq_one]
  refine exists_congr fun px => exists_congr fun py => and_congr_right fun hpx => and_congr_right fun hpy => ?_
  rw [s.afterDrw_spriteBit hx hy, s.afterDrw_pixel x y n hpx hpy, hClear px py hpx hpy, Bool.false_xor, and_self]

/-- Settles O20: the second draw XORs the same bits, and from a clear display it meets exactly the bits the first
set. -/
theorem drawingTwiceRestoresDisplay : Obligations.DrawingTwiceRestoresDisplay := fun s x y n _ hx hy =>
  ⟨_, _, exec_drw s x y n, exec_drw _ x y n, s.afterDrw_afterDrw_fb hx hy n, fun hClear =>
    ⟨State.afterDrw_vf_of_clear hClear x y n, State.afterDrw_afterDrw_vf_of_clear hClear hx hy n⟩⟩

/-! ### Who sets `dirty` -/

/-- Only `00E0` and `DXYN` write an output port (R105). -/
theorem exec_out {i : Instr} {s t : State} (h : exec i s = .next t) (hCls : i ≠ .cls)
    (hDrw : ∀ x y n, i ≠ .drw x y n) : t.out = s.out := by
  cases i with
  | cls => exact absurd rfl hCls
  | drw x y n => exact absurd rfl (hDrw x y n)
  | _ => cases h; simp

/-- `00E0` and `DXYN` set `dirty` in every execution (R105). -/
theorem exec_dirty {i : Instr} {s t : State} (hi : i = .cls ∨ ∃ x y n, i = .drw x y n) (h : exec i s = .next t) :
    t.out.dirty = true := by
  obtain rfl | ⟨x, y, n, rfl⟩ := hi <;> cases h <;> rfl

/-- Settles O21: the fetch clears `dirty`, the display instructions set it, and neither another instruction nor the
no-op writes it. -/
theorem onlyDisplayInstructionsSetDirty : Obligations.OnlyDisplayInstructionsSetDirty := by
  refine ⟨fun i s t h => ⟨fun hDirty => ?_, fun hi => exec_dirty hi h⟩, fun s t r hp hd h => ?_⟩
  · by_contra hOther
    rw [not_or] at hOther
    obtain ⟨hCls, hDrw⟩ := hOther
    rw [exec_out h hCls (fun x y n hi => hDrw ⟨x, y, n, hi⟩), State.fetch_out] at hDirty
    exact Bool.false_ne_true hDirty
  · obtain ⟨p, hc⟩ := cycle_of_step hp h
    rw [cycle_of_rejected (s := { s with pending := p }) hd] at hc
    cases hc
    rw [State.markUnimp, State.fetch_out]

end Sys2Proof.Machine
end

section
/-! PROOFS. The control transfers: the whole effect of `00EE`, `1NNN`, `2NNN` and `BNNN`, and a return after a call
(spec 41_control_flow.md R120 to R123). -/

namespace Sys2Proof.Machine

open Sys2Proof

/-! ### Jumps -/

/-- The whole effect of `1NNN` (R121). -/
theorem exec_jp (s : State) (nnn : Addr12) : exec (.jp nnn) s = .next { s with pc := nnn.setWidth 16 } := rfl

/-- The whole effect of `BNNN` (R123). -/
theorem exec_jpV0 (s : State) (nnn : Addr12) :
    exec (.jpV0 nnn) s = .next { s with pc := nnn.setWidth 16 + (s.getV 0).setWidth 16 } := rfl

/-- A 12-bit address and a byte add up without leaving the 16-bit word (R123). -/
theorem addr12_add_byte_toNat (nnn : Addr12) (b : Byte) :
    (nnn.setWidth 16 + b.setWidth 16 : Word).toNat = nnn.toNat + b.toNat := by
  have hAddr : nnn.toNat < 4096 := nnn.isLt
  have hByte : b.toNat < 256 := b.isLt
  rw [BitVec.toNat_add, BitVec.toNat_setWidth, BitVec.toNat_setWidth]
  omega

/-- Settles O22: the whole effect of `1NNN`. -/
theorem jpSetsPc : Obligations.JpSetsPc := ⟨encodedAs_withFields (.jp 0), exec_jp⟩

/-- Settles O23: the sum NNN + V0 never reaches 65536, so it is at most 0xFFF + 0xFF. -/
theorem jpV0AddsV0 : Obligations.JpV0AddsV0 := by
  refine ⟨encodedAs_withFields (.jpV0 0), fun s nnn => ⟨_, exec_jpV0 s nnn, ?_⟩⟩
  have hAddr : nnn.toNat < 4096 := nnn.isLt
  have hV0 : (s.getV 0).toNat < 256 := (s.getV 0).isLt
  refine ⟨?_, ?_, rfl⟩ <;> rw [addr12_add_byte_toNat] <;> omega

/-! ### The return stack -/

section
variable {s : State}

/-- A call with room on the stack pushes pc and jumps (R122). -/
theorem State.callTo_of_room (h : s.sp.val < 16) (a : Word) :
    s.callTo a =
      { s with stack := s.stack.set s.sp.val s.pc h, sp := ⟨s.sp.val + 1, Nat.succ_lt_succ h⟩, pc := a } :=
  dif_pos h

/-- A call on a full stack only records its cause (R122). -/
theorem State.callTo_of_full (h : s.sp.val = 16) (a : Word) :
    s.callTo a = { s with fault := s.recordOf .stackOverflow (some 16) } :=
  (dif_neg (by omega)).trans (State.raise_eq s _ _)

/-- A return with an entry in use pops pc and leaves the entry where it is (R120). -/
theorem State.returnFromCall_of_entry (h : 0 < s.sp.val) :
    s.returnFromCall = { s with sp := ⟨s.sp.val - 1, by omega⟩, pc := s.stack[s.sp.val - 1] } :=
  dif_pos h

/-- A return on an empty stack only records its cause (R120). -/
theorem State.returnFromCall_of_empty (h : s.sp.val = 0) :
    s.returnFromCall = { s with fault := s.recordOf .stackUnderflow (some 0) } :=
  (dif_neg (by omega)).trans (State.raise_eq s _ _)

/-- A return pops what the call before it pushed, wherever the subroutine has taken pc (S8). -/
theorem State.returnFromCall_callTo (h : s.sp.val < 16) (a pc : Word) :
    ({ s.callTo a with pc := pc } : State).returnFromCall = { s.callTo a with pc := s.pc, sp := s.sp } := by
  rw [State.callTo_of_room h, State.returnFromCall_of_entry (Nat.succ_pos _)]
  simp

end

theorem exec_call (s : State) (nnn : Addr12) : exec (.call nnn) s = .next (s.callTo (nnn.setWidth 16)) := rfl

theorem exec_ret (s : State) : exec .ret s = .next s.returnFromCall := rfl

/-- Settles O24: the call with room, read off its whole effect, and the call on a full stack. -/
theorem callPushesReturnAddress : Obligations.CallPushesReturnAddress := by
  refine ⟨encodedAs_withFields (.call 0), fun s nnn h => ⟨_, exec_call s nnn, ?_⟩, fun s nnn h => ?_⟩
  · rw [State.callTo_of_room h]
    exact ⟨Vector.getElem?_set_self h, fun j hj => Vector.getElem?_set_ne h hj.symm, rfl, rfl, rfl⟩
  · rw [exec_call, State.callTo_of_full h]

/-- Settles O25: the return with an entry in use, read off its whole effect, and the return on an empty stack. -/
theorem retPopsReturnAddress : Obligations.RetPopsReturnAddress := by
  refine ⟨encodedAs_withFields .ret, fun s h => ⟨_, exec_ret s, ?_⟩, fun s h => ?_⟩
  · rw [State.returnFromCall_of_entry h]
    exact ⟨rfl, (Vector.getElem?_eq_getElem _).symm, rfl⟩
  · rw [exec_ret, State.returnFromCall_of_empty h]

/-- Settles O26: the return pops the entry that the call pushed, and sp is back where it was. -/
theorem retUndoesCall : Obligations.RetUndoesCall := fun s nnn pc h =>
  ⟨_, _, exec_call s nnn, (exec_ret _).trans (congrArg _ (State.returnFromCall_callTo h _ pc)), rfl, rfl, rfl⟩

end Sys2Proof.Machine
end

section
/-! PROOFS. The register skips: the whole effect of `3XNN`, `4XNN`, `5XY0` and `9XY0` (spec 42_skips.md R140 to R144). -/

namespace Sys2Proof.Machine

open Sys2Proof

/-- A skip when two bytes are equal writes pc alone (R144). -/
theorem State.skipIf_beq (s : State) (a b : Byte) :
    s.skipIf (a == b) = { s with pc := if a = b then s.pc + 2 else s.pc } := by
  by_cases h : a = b <;> simp [State.skipIf, h]

/-- A skip when two bytes differ writes pc alone (R144). -/
theorem State.skipIf_bne (s : State) (a b : Byte) :
    s.skipIf (a != b) = { s with pc := if a = b then s.pc else s.pc + 2 } := by
  by_cases h : a = b <;> simp [State.skipIf, h]

/-- The whole effect of `3XNN` (R140). -/
theorem exec_seImm (s : State) (x : Reg) (nn : Byte) :
    exec (.seImm x nn) s = .next { s with pc := if s.getV x = nn then s.pc + 2 else s.pc } :=
  congrArg _ (s.skipIf_beq _ _)

/-- The whole effect of `4XNN` (R141). -/
theorem exec_sneImm (s : State) (x : Reg) (nn : Byte) :
    exec (.sneImm x nn) s = .next { s with pc := if s.getV x = nn then s.pc else s.pc + 2 } :=
  congrArg _ (s.skipIf_bne _ _)

/-- The whole effect of `5XY0` (R142). -/
theorem exec_seReg (s : State) (x y : Reg) :
    exec (.seReg x y) s = .next { s with pc := if s.getV x = s.getV y then s.pc + 2 else s.pc } :=
  congrArg _ (s.skipIf_beq _ _)

/-- The whole effect of `9XY0` (R143). -/
theorem exec_sneReg (s : State) (x y : Reg) :
    exec (.sneReg x y) s = .next { s with pc := if s.getV x = s.getV y then s.pc else s.pc + 2 } :=
  congrArg _ (s.skipIf_bne _ _)

/-- Settles O27: the four encodings are rows of the opcode table, and each skip's effect is `skipIf` on its comparison. -/
theorem skipsAddTwoToPc : Obligations.SkipsAddTwoToPc :=
  ⟨encodedAs_withFields (.seImm 0 0), encodedAs_withFields (.sneImm 0 0), encodedAs_withFields (.seReg 0 0),
    encodedAs_withFields (.sneReg 0 0), fun s x y nn =>
    ⟨exec_seImm s x nn, exec_sneImm s x nn, exec_seReg s x y, exec_sneReg s x y⟩⟩

end Sys2Proof.Machine
end

section
/-! PROOFS. The register and ALU instructions: the whole effect of `6XNN`, `7XNN`, `8XY0` to `8XY7`, `8XYE` and `CXNN`,
with VF as an operand, as the result, or both (spec 43_alu.md R160 to R178). -/

namespace Sys2Proof.Machine

open Sys2Proof

/-! ### Forms without a flag -/

/-- The whole effect of `6XNN` (R161). -/
theorem exec_ldImm (s : State) (x : Reg) (nn : Byte) : exec (.ldImm x nn) s = .next (s.setV x nn) := rfl

/-- The whole effect of `7XNN` (R162). -/
theorem exec_addImm (s : State) (x : Reg) (nn : Byte) : exec (.addImm x nn) s = .next (s.setV x (s.getV x + nn)) := rfl

/-- The whole effect of `8XY0` (R165). -/
theorem exec_ldReg (s : State) (x y : Reg) : exec (.ldReg x y) s = .next (s.setV x (s.getV y)) := rfl

/-- The whole effect of `8XY1` (R166). -/
theorem exec_orReg (s : State) (x y : Reg) : exec (.orReg x y) s = .next (s.setV x (s.getV x ||| s.getV y)) := rfl

/-- The whole effect of `8XY2` (R167). -/
theorem exec_andReg (s : State) (x y : Reg) : exec (.andReg x y) s = .next (s.setV x (s.getV x &&& s.getV y)) := rfl

/-- The whole effect of `8XY3` (R168). -/
theorem exec_xorReg (s : State) (x y : Reg) : exec (.xorReg x y) s = .next (s.setV x (s.getV x ^^^ s.getV y)) := rfl

/-- The whole effect of `CXNN` (R178). -/
theorem exec_rnd (s : State) (x : Reg) (nn : Byte) :
    exec (.rnd x nn) s =
      .next (({ s with draws := s.draws + 1 } : State).setV x (Config.randomByte s.draws &&& nn)) := rfl

/-- Settles O28: each effect is one `setV`, and the sum of two bytes is taken modulo 256. -/
theorem immediateLoadAndAdd : Obligations.ImmediateLoadAndAdd :=
  ⟨encodedAs_withFields (.ldImm 0 0), encodedAs_withFields (.addImm 0 0), fun s x nn =>
    ⟨exec_ldImm s x nn, _, BitVec.toNat_add _ _, exec_addImm s x nn⟩⟩

/-- Settles O29: each effect is one `setV` of V[X]. -/
theorem registerCopyAndLogic : Obligations.RegisterCopyAndLogic :=
  ⟨encodedAs_withFields (.ldReg 0 0), encodedAs_withFields (.orReg 0 0), encodedAs_withFields (.andReg 0 0),
    encodedAs_withFields (.xorReg 0 0), fun s x y =>
    ⟨exec_ldReg s x y, exec_orReg s x y, exec_andReg s x y, exec_xorReg s x y⟩⟩

/-- Settles O35: V[X] becomes the draw masked by NN, so no bit outside NN is left, whatever the draw. -/
theorem rndMasksOneFreshDraw : Obligations.RndMasksOneFreshDraw := by
  refine ⟨encodedAs_withFields (.rnd 0 0), fun s x nn => ⟨_, exec_rnd s x nn, State.getV_setV_same _ _ _, rfl, ?_,
    fun r hr => State.getV_setV_other _ _ hr.symm, fun _ => rfl, rfl⟩⟩
  rw [State.getV_setV_same, BitVec.and_assoc, BitVec.and_not_self]
  exact BitVec.and_zero

/-! ### A flag, then a result -/

/-- The state after the two statements of a flag-writing form: VF takes the flag `c`, then V[X] takes `f V[X] V[Y]`,
which reads VF as the flag statement left it (R16, R164, R176). -/
def State.afterFlagOp (s : State) (x y : Reg) (c : Byte) (f : Byte → Byte → Byte) : State :=
  (s.setV Reg.vf c).setV x (f ((s.setV Reg.vf c).getV x) ((s.setV Reg.vf c).getV y))

section
variable (s : State) (x y : Reg)

/-- The whole effect of `8XY4` (R170). -/
theorem exec_addReg :
    exec (.addReg x y) s = .next (s.afterFlagOp x y (carryFlag (s.getV x) (s.getV y)) fun a b => a + b) := rfl

/-- The whole effect of `8XY5` (R171). -/
theorem exec_subReg :
    exec (.subReg x y) s = .next (s.afterFlagOp x y (greaterFlag (s.getV x) (s.getV y)) fun a b => a - b) := rfl

/-- The whole effect of `8XY7` (R172). -/
theorem exec_subnReg :
    exec (.subnReg x y) s = .next (s.afterFlagOp x y (greaterFlag (s.getV y) (s.getV x)) fun a b => b - a) := rfl

/-- The whole effect of `8XY6`: V[X] is the only operand (R173). -/
theorem exec_shr :
    exec (.shr x y) s = .next (s.afterFlagOp x x (shrFlag s.cfg.shrFlagMask (s.getV x)) fun a _ => a >>> 1) := rfl

/-- The whole effect of `8XYE`: V[X] is the only operand (R175). -/
theorem exec_shl : exec (.shl x y) s = .next (s.afterFlagOp x x (shlFlag (s.getV x)) fun a _ => a <<< 1) := rfl

variable (c : Byte) (f : Byte → Byte → Byte)

/-- Nothing but V[X] and VF is written (R164). -/
theorem State.afterFlagOp_frame :
    (∀ r, r ≠ x → r ≠ 15 → (s.afterFlagOp x y c f).getV r = s.getV r) ∧
      (∀ m, (s.afterFlagOp x y c f).peek m = s.peek m) ∧
      s.afterFlagOp x y c f = { s with v := (s.afterFlagOp x y c f).v } := by
  refine ⟨fun r hx hVf => ?_, fun _ => rfl, rfl⟩
  rw [State.afterFlagOp, State.getV_setV_other _ _ hx.symm, State.getV_setV_other _ _ hVf.symm]

/-- V[X] ends as the result, with the flag in place of an operand that is VF (R164, R176). -/
theorem State.afterFlagOp_getV :
    (s.afterFlagOp x y c f).getV x = f (if x = 15 then c else s.getV x) (if y = 15 then c else s.getV y) := by
  simp only [State.afterFlagOp, State.getV_setV_same, State.getV_setV, eq_comm (a := Reg.vf)]

/-- VF ends as the flag, unless the result goes there (R176). -/
theorem State.afterFlagOp_vf (hx : x ≠ 15) : (s.afterFlagOp x y c f).getV 15 = c := by
  rw [State.afterFlagOp, State.getV_setV_other _ _ hx, State.getV_setV_same]

/-- Where both operands are VF the result is the flag's with itself (R176). -/
theorem State.afterFlagOp_vf_of_both (hx : x = 15) (hy : y = 15) : (s.afterFlagOp x y c f).getV 15 = f c c := by
  subst hx hy
  exact s.afterFlagOp_getV 15 15 c f

/-- The values of V[X] and VF by which of X and Y are F, for a result whose value is `g` of the operands' (R176). -/
theorem State.afterFlagOp_cases (g : Nat → Nat → Nat) (hf : ∀ p q : Byte, (f p q).toNat = g p.toNat q.toNat)
    {a b n : Nat} (ha : a = (s.getV x).toNat) (hb : b = (s.getV y).toNat) (hc : c.toNat = n) :
    (x ≠ 15 → y ≠ 15 →
      ((s.afterFlagOp x y c f).getV x).toNat = g a b ∧ ((s.afterFlagOp x y c f).getV 15).toNat = n) ∧
    (x = 15 → y ≠ 15 → ((s.afterFlagOp x y c f).getV 15).toNat = g n b) ∧
    (x ≠ 15 → y = 15 →
      ((s.afterFlagOp x y c f).getV x).toNat = g a n ∧ ((s.afterFlagOp x y c f).getV 15).toNat = n) ∧
    (x = 15 → y = 15 → ((s.afterFlagOp x y c f).getV 15).toNat = g n n) := by
  have hResult : ((s.afterFlagOp x y c f).getV x).toNat = g (if x = 15 then n else a) (if y = 15 then n else b) := by
    rw [State.afterFlagOp_getV, hf, apply_ite BitVec.toNat, apply_ite BitVec.toNat, ha, hb, hc]
  have hFlag : x ≠ 15 → ((s.afterFlagOp x y c f).getV 15).toNat = n := fun hx => by
    rw [State.afterFlagOp_vf s x y c f hx, hc]
  refine ⟨fun hx hy => ⟨?_, hFlag hx⟩, fun hx hy => ?_, fun hx hy => ⟨?_, hFlag hx⟩, fun hx hy => ?_⟩
  · rw [hResult, if_neg hx, if_neg hy]
  · rw [← hx, hResult, if_pos hx, if_neg hy]
  · rw [hResult, if_neg hx, if_pos hy]
  · rw [← hx, hResult, if_pos hx, if_pos hy]

end

/-! ### The values of the flags and the results -/

theorem flagOf_decide_toNat (p : Prop) [Decidable p] : (flagOf (decide p)).toNat = if p then 1 else 0 := by
  by_cases h : p <;> simp [flagOf, h]

theorem carryFlag_toNat (a b : Byte) : (carryFlag a b).toNat = if a.toNat + b.toNat > 255 then 1 else 0 :=
  flagOf_decide_toNat _

theorem greaterFlag_toNat (a b : Byte) : (greaterFlag a b).toNat = if a.toNat > b.toNat then 1 else 0 :=
  flagOf_decide_toNat _

/-- The flag of `8XY6` is the low bit or the low nibble, by the parameter (R10, R173). -/
theorem shrFlag_toNat (mask : ShrFlagMask) (a : Byte) :
    (shrFlag mask a).toNat = if mask = .lowBit then a.toNat % 2 else a.toNat % 16 := by
  rw [shrFlag, BitVec.toNat_and]
  cases mask with
  | lowBit => exact Nat.and_two_pow_sub_one_eq_mod a.toNat 1
  | lowNibble => exact Nat.and_two_pow_sub_one_eq_mod a.toNat 4

theorem shlFlag_toNat (a : Byte) : (shlFlag a).toNat = a.toNat / 128 := by
  rw [shlFlag, BitVec.toNat_ushiftRight, Nat.shiftRight_eq_div_pow]

/-- The difference of two bytes wraps modulo 256 (R160). -/
theorem byte_sub_toNat (a b : Byte) : (a - b).toNat = (256 + a.toNat - b.toNat) % 256 := by
  have hb : b.toNat < 256 := b.isLt
  rw [BitVec.toNat_sub]
  omega

/-! ### The flag-writing forms -/

/-- Settles O30: the carry and the sum; a carry added to itself does not wrap. -/
theorem addRegWritesSumAndCarry : Obligations.AddRegWritesSumAndCarry := by
  refine ⟨encodedAs_withFields (.addReg 0 0), fun s x y a b c ha hb hc => ⟨_, exec_addReg s x y, ?_⟩⟩
  have hCarry : (carryFlag (s.getV x) (s.getV y)).toNat = c := by rw [carryFlag_toNat, hc, ha, hb]
  obtain ⟨hNeither, hX, hY, hBoth⟩ :=
    s.afterFlagOp_cases x y _ (fun a b => a + b) (fun m n => (m + n) % 256) BitVec.toNat_add ha hb hCarry
  refine ⟨hNeither, hX, hY, fun hx hy => ?_, s.afterFlagOp_frame x y _ _⟩
  have hDouble : (c + c) % 256 = 2 * c := by split at hc <;> omega
  exact (hBoth hx hy).trans hDouble

/-- Settles O31: the strict comparison and the difference; a flag minus itself is 0. -/
theorem subRegWritesDifferenceAndGreater : Obligations.SubRegWritesDifferenceAndGreater := by
  refine ⟨encodedAs_withFields (.subReg 0 0), fun s x y a b g ha hb hg => ⟨_, exec_subReg s x y, ?_⟩⟩
  have hGreater : (greaterFlag (s.getV x) (s.getV y)).toNat = g := by rw [greaterFlag_toNat, hg, ha, hb]
  obtain ⟨hNeither, hX, hY, -⟩ :=
    s.afterFlagOp_cases x y _ (fun a b => a - b) (fun m n => (256 + m - n) % 256) byte_sub_toNat ha hb hGreater
  exact ⟨hNeither, hX, hY, fun hx hy => (s.afterFlagOp_vf_of_both x y _ _ hx hy).trans (BitVec.sub_self _),
    s.afterFlagOp_frame x y _ _⟩

/-- Settles O32: as `8XY5` with the operands of the comparison and of the difference swapped. -/
theorem subnRegWritesDifferenceAndGreater : Obligations.SubnRegWritesDifferenceAndGreater := by
  refine ⟨encodedAs_withFields (.subnReg 0 0), fun s x y a b g ha hb hg => ⟨_, exec_subnReg s x y, ?_⟩⟩
  have hGreater : (greaterFlag (s.getV y) (s.getV x)).toNat = g := by rw [greaterFlag_toNat, hg, ha, hb]
  obtain ⟨hNeither, hX, hY, -⟩ :=
    s.afterFlagOp_cases x y _ (fun a b => b - a) (fun m n => (256 + n - m) % 256) (fun p q => byte_sub_toNat q p)
      ha hb hGreater
  exact ⟨hNeither, hX, hY, fun hx hy => (s.afterFlagOp_vf_of_both x y _ _ hx hy).trans (BitVec.sub_self _),
    s.afterFlagOp_frame x y _ _⟩

/-- Settles O33: with V[X] for both operands, the flag and the half; with X = F the half is the flag's. -/
theorem shrShiftsRightAndMasksFlag : Obligations.ShrShiftsRightAndMasksFlag := by
  refine ⟨encodedAs_withFields (.shr 0 0), fun s x y a n ha hn => ⟨_, exec_shr s x y, ?_⟩⟩
  have hFlag : (shrFlag s.cfg.shrFlagMask (s.getV x)).toNat = n := by rw [shrFlag_toNat, hn, ha]
  have hHalf (p _q : Byte) : (p >>> 1).toNat = p.toNat / 2 := by
    rw [BitVec.toNat_ushiftRight, Nat.shiftRight_eq_div_pow]
  obtain ⟨hOther, -, -, hVf⟩ :=
    s.afterFlagOp_cases x x _ (fun a _ => a >>> 1) (fun m _ => m / 2) hHalf ha ha hFlag
  exact ⟨fun hx => hOther hx hx, fun hx => hVf hx hx, s.afterFlagOp_frame x x _ _⟩

/-- Settles O34: with V[X] for both operands, bit 7 and the double; with X = F the double is that bit's and does not
wrap. -/
theorem shlShiftsLeftAndTakesTopBit : Obligations.ShlShiftsLeftAndTakesTopBit := by
  refine ⟨encodedAs_withFields (.shl 0 0), fun s x y a ha => ⟨_, exec_shl s x y, ?_⟩⟩
  have hFlag : (shlFlag (s.getV x)).toNat = a / 128 := by rw [shlFlag_toNat, ha]
  have hDouble (p _q : Byte) : (p <<< 1).toNat = 2 * p.toNat % 256 := by
    rw [BitVec.toNat_shiftLeft, Nat.shiftLeft_eq, mul_comm]
  obtain ⟨hOther, -, -, hVf⟩ :=
    s.afterFlagOp_cases x x _ (fun a _ => a <<< 1) (fun m _ => 2 * m % 256) hDouble ha ha hFlag
  refine ⟨fun hx => hOther hx hx, fun hx => (hVf hx hx).trans ?_, s.afterFlagOp_frame x x _ _⟩
  have hByte : a < 256 := ha ▸ (s.getV x).isLt
  omega

end Sys2Proof.Machine
end

section
/-! PROOFS. The index register and memory: the whole effect of `ANNN`, `FX1E` and `FX29`, the bytes that `FX33` and
`FX55` store, the registers that `FX65` loads, and a load after a store (spec 44_index_memory.md R200 to R206). -/

namespace Sys2Proof.Machine

open Sys2Proof

/-! ### The index register -/

/-- The whole effect of `ANNN` (R200). -/
theorem exec_ldI (s : State) (nnn : Addr12) : exec (.ldI nnn) s = .next { s with i := nnn.setWidth 16 } := rfl

/-- The whole effect of `FX1E` (R201). -/
theorem exec_addI (s : State) (x : Reg) : exec (.addI x) s = .next { s with i := s.i + (s.getV x).setWidth 16 } := rfl

/-- The whole effect of `FX29` (R202). -/
theorem exec_ldF (s : State) (x : Reg) :
    exec (.ldF x) s = .next { s with i := BitVec.ofNat 16 ((s.getV x).toNat * 5) } := rfl

/-- A byte added to a 16-bit word wraps modulo 65536 (R201). -/
theorem word_add_byte_toNat (w : Word) (b : Byte) : (w + b.setWidth 16).toNat = (w.toNat + b.toNat) % 65536 := by
  rw [BitVec.toNat_add, BitVec.toNat_setWidth_of_le (by decide)]

/-- Five times a byte fits the 16-bit word (R202). -/
theorem glyphAddr_toNat (b : Byte) : (BitVec.ofNat 16 (b.toNat * 5)).toNat = b.toNat * 5 := by
  have hByte : b.toNat < 256 := b.isLt
  rw [BitVec.toNat_ofNat]
  omega

/-- Settles O36: each effect writes I alone; only the sum of `FX1E` can wrap. -/
theorem indexInstructionsSetI : Obligations.IndexInstructionsSetI :=
  ⟨encodedAs_withFields (.ldI 0), encodedAs_withFields (.addI 0), encodedAs_withFields (.ldF 0), fun s x nnn =>
    ⟨exec_ldI s nnn, ⟨_, word_add_byte_toNat _ _, exec_addI s x⟩, ⟨_, glyphAddr_toNat _, exec_ldF s x⟩⟩⟩

/-! ### Decimal digits -/

theorem hundreds_toNat (v : Byte) : (hundreds v).toNat = v.toNat / 100 := by
  have hByte : v.toNat < 256 := v.isLt
  rw [hundreds, BitVec.toNat_ofNat]
  omega

theorem tens_toNat (v : Byte) : (tens v).toNat = v.toNat / 10 % 10 := by
  rw [tens, BitVec.toNat_ofNat]
  omega

theorem units_toNat (v : Byte) : (units v).toNat = v.toNat % 10 := by
  rw [units, BitVec.toNat_ofNat]
  omega

/-- The state that `FX33` leaves for the value `v`: its digits written at I, I + 1 and I + 2 in this order (R203). -/
def State.storeDigits (s : State) (v : Byte) : State :=
  ((s.memWrite s.i (hundreds v)).memWrite (s.i + 1) (tens v)).memWrite (s.i + 2) (units v)

theorem exec_ldB (s : State) (x : Reg) : exec (.ldB x) s = .next (s.storeDigits (s.getV x)) := rfl

/-- Only memory and the fault register are written (R203, R204). -/
theorem State.storeDigits_eq (s : State) (v : Byte) :
    s.storeDigits v = { s with mem := (s.storeDigits v).mem, fault := (s.storeDigits v).fault } := by
  rw [State.storeDigits, State.memWrite_eq (State.memWrite _ _ _), State.memWrite_eq (State.memWrite _ _ _),
    State.memWrite_eq s]

/-- The first of the three addresses that is above 0xFFF is recorded (R53, R264). -/
theorem State.storeDigits_fault (s : State) (v : Byte) :
    (s.storeDigits v).fault = s.recordOf .addrRange (s.firstOutOfRange 3) := by
  have hFirst : (s.memWrite s.i (hundreds v)).fault = s.recordOf .addrRange (s.firstOutOfRange 1) := by
    rw [State.memWrite_fault, State.firstOutOfRange_succ, State.indexed_zero]
    rfl
  have hSecond : ((s.memWrite s.i (hundreds v)).memWrite (s.i + 1) (tens v)).fault =
      s.recordOf .addrRange (s.firstOutOfRange 2) := by
    rw [State.memWrite_fault, State.firstOutOfRange_succ]
    exact State.recordOf_recordOf (by decide) hFirst (by simp) (by simp)
  rw [State.storeDigits, State.memWrite_fault, State.firstOutOfRange_succ]
  exact State.recordOf_recordOf (by decide) hSecond (by simp) (by simp)

/-- The byte at each address after the three writes, the last write first (R203). -/
theorem State.peek_storeDigits {s : State} (hs : s.MemCanonical) (v : Byte) (a : Word) :
    (s.storeDigits v).peek a =
      if s.i + 2 = a ∧ InRange (s.i + 2) then units v
      else if s.i + 1 = a ∧ InRange (s.i + 1) then tens v
      else if s.i = a ∧ InRange s.i then hundreds v
      else s.peek a := by
  have hFirst := State.memWrite_canonical hs s.i (hundreds v)
  have hSecond := State.memWrite_canonical hFirst (s.i + 1) (tens v)
  rw [State.storeDigits, State.peek_memWrite hSecond, State.peek_memWrite hFirst, State.peek_memWrite hs]

/-- Settles O37: the three addresses differ, so each digit stays as it was written. -/
theorem bcdStoresDigits : Obligations.BcdStoresDigits := by
  refine ⟨encodedAs_withFields (.ldB 0), fun s x hs => ⟨_, exec_ldB s x, fun hr => ?_, fun hr => ?_, fun hr => ?_,
    fun a h0 h1 h2 => ?_, s.storeDigits_fault _, s.storeDigits_eq _⟩⟩
  · have h1 : s.i + 1 ≠ s.i := by simp
    have h2 : s.i + 2 ≠ s.i := by simp
    rw [State.peek_storeDigits hs, if_neg (fun h => h2 h.1), if_neg (fun h => h1 h.1), if_pos ⟨rfl, hr⟩,
      hundreds_toNat]
  · have h2 : s.i + 2 ≠ s.i + 1 := by simp
    rw [State.peek_storeDigits hs, if_neg (fun h => h2 h.1), if_pos ⟨rfl, hr⟩, tens_toNat]
  · rw [State.peek_storeDigits hs, if_pos ⟨rfl, hr⟩, units_toNat]
  · rw [State.peek_storeDigits hs, if_neg (fun h => h2 h.1.symm), if_neg (fun h => h1 h.1.symm),
      if_neg (fun h => h0 h.1.symm)]

/-! ### Ranges of registers -/

theorem exec_storeRegs (s : State) (x : Reg) : exec (.storeRegs x) s = .next (s.storeUpTo (x.val + 1)) := rfl

theorem exec_loadRegs (s : State) (x : Reg) : exec (.loadRegs x) s = .next (s.loadUpTo (x.val + 1)) := rfl

section
variable {s : State} {x k : Reg}

/-- `FX55` leaves each register up to V[X] at its own address (R205). -/
theorem State.peek_storeUpTo_reg (hs : s.MemCanonical) (hk : k ≤ x) (hr : InRange (s.indexed k.val)) :
    (s.storeUpTo (x.val + 1)).peek (s.indexed k.val) = s.getV k := by
  rw [State.peek_storeUpTo hs (Nat.lt_succ_of_le hk) x.isLt hr, Fin.ofNat_val_eq_self]

/-- `FX55` leaves every address outside its range alone (R205). -/
theorem State.peek_storeUpTo_outside (hs : s.MemCanonical) {a : Word}
    (h : ∀ k : Reg, k ≤ x → a ≠ s.indexed k.val) : (s.storeUpTo (x.val + 1)).peek a = s.peek a :=
  State.peek_storeUpTo_other hs fun j hj => h ⟨j, by omega⟩ (Nat.le_of_lt_succ hj)

/-- `FX65` loads each register up to V[X] from its own address (R206). -/
theorem State.getV_loadUpTo_of_le (hk : k ≤ x) : (s.loadUpTo (x.val + 1)).getV k = s.peek (s.indexed k.val) := by
  rw [State.getV_loadUpTo s x.isLt, if_pos (Nat.lt_succ_of_le hk)]

/-- `FX65` leaves every register above V[X] alone (R206). -/
theorem State.getV_loadUpTo_of_lt (hk : x < k) : (s.loadUpTo (x.val + 1)).getV k = s.getV k := by
  rw [State.getV_loadUpTo s x.isLt, if_neg (Nat.not_lt_of_le hk)]

/-- With every address of the range inside memory none is recorded (R51). -/
theorem State.firstOutOfRange_eq_none (h : ∀ k : Reg, k ≤ x → InRange (s.indexed k.val)) :
    s.firstOutOfRange (x.val + 1) = none := by
  rw [State.firstOutOfRange, List.find?_eq_none]
  intro a ha
  obtain ⟨j, hj, rfl⟩ := List.mem_map.1 ha
  have hx : j < x.val + 1 := List.mem_range.1 hj
  have hIn : InRange (s.indexed j) := h ⟨j, by omega⟩ (Nat.le_of_lt_succ hx)
  simpa using hIn

/-- With every address of its range inside memory `FX55` records nothing (R53). -/
theorem State.storeUpTo_fault_of_none {n : Nat} (h : s.firstOutOfRange n = none) :
    (s.storeUpTo n).fault = s.fault := by
  rw [State.storeUpTo_fault, h, State.recordOf]

/-- With every address of its range inside memory `FX65` records nothing (R52). -/
theorem State.loadUpTo_fault_of_none {n : Nat} (h : s.firstOutOfRange n = none) : (s.loadUpTo n).fault = s.fault := by
  rw [State.loadUpTo_fault, h, State.recordOf]

/-- A load from the memory that a store with the same I and X left reads the stored registers back (S5). -/
theorem State.getV_loadUpTo_of_stored {t : State} (hs : s.MemCanonical) (hi : t.i = s.i)
    (hm : t.mem = (s.storeUpTo (x.val + 1)).mem) (hc : t.cfg = s.cfg) (hk : k ≤ x) (hr : InRange (s.indexed k.val)) :
    (t.loadUpTo (x.val + 1)).getV k = s.getV k := by
  rw [State.getV_loadUpTo_of_le hk, State.indexed_congr hi, State.peek_congr hm (hc.trans (s.storeUpTo_cfg _).symm),
    State.peek_storeUpTo_reg hs hk hr]

end

/-- Settles O38: what the range's store leaves at each address, and its frame. -/
theorem storeRegsWritesRange : Obligations.StoreRegsWritesRange :=
  ⟨encodedAs_withFields (.storeRegs 0), fun s x hs => ⟨_, exec_storeRegs s x,
    fun _ hk hr => State.peek_storeUpTo_reg hs hk hr, fun _ ha => State.peek_storeUpTo_outside hs ha,
    s.storeUpTo_fault _, s.storeUpTo_eq _⟩⟩

/-- Settles O39: what the range's load leaves in each register, where a byte above 0xFFF reads as 0, and its frame. -/
theorem loadRegsReadsRange : Obligations.LoadRegsReadsRange :=
  ⟨encodedAs_withFields (.loadRegs 0), fun s x => ⟨_, exec_loadRegs s x,
    fun _ hk _ => State.getV_loadUpTo_of_le hk,
    fun _ hk hr => (State.getV_loadUpTo_of_le hk).trans (State.peek_outOfRange s hr),
    fun _ hk => State.getV_loadUpTo_of_lt hk,
    s.loadUpTo_fault _, State.peek_congr (s.loadUpTo_mem _) (s.loadUpTo_cfg _), s.loadUpTo_eq _⟩⟩

/-- Settles O40: the store keeps I, so the load reads each register back from the address it was stored at; inside
memory neither records a fault. -/
theorem loadUndoesStore : Obligations.LoadUndoesStore := by
  intro s x v hs hIn
  have hStoreI : (s.storeUpTo (x.val + 1)).i = s.i := s.storeUpTo_i _
  have hNone : s.firstOutOfRange (x.val + 1) = none := State.firstOutOfRange_eq_none hIn
  have hLoadNone : ({ s.storeUpTo (x.val + 1) with v := v } : State).firstOutOfRange (x.val + 1) = none :=
    (State.firstOutOfRange_congr hStoreI _).trans hNone
  refine ⟨_, _, exec_storeRegs s x, exec_loadRegs _ x, fun k hk => ?_, (State.loadUpTo_i _ _).trans hStoreI, ?_⟩
  · exact State.getV_loadUpTo_of_stored hs hStoreI rfl (s.storeUpTo_cfg _) hk (hIn k hk)
  · exact (State.loadUpTo_fault_of_none hLoadNone).trans (State.storeUpTo_fault_of_none hNone)

end Sys2Proof.Machine
end

section
/-! PROOFS. The key instructions: the whole effect of `EX9E` and `EXA1`, the four rows of `FX0A`, and what a run at an
`FX0A` does while no key is pressed and over a press, a hold and a release (spec 45_keys.md R230 to R237). -/

namespace Sys2Proof.Machine

open Sys2Proof

/-! ### The key skips -/

/-- A skip writes pc alone (R144). -/
theorem State.skipIf_eq (s : State) (c : Bool) : s.skipIf c = { s with pc := if c = true then s.pc + 2 else s.pc } := by
  cases c <;> rfl

theorem State.skipIf_not (s : State) (c : Bool) :
    s.skipIf (!c) = { s with pc := if c = true then s.pc else s.pc + 2 } := by
  cases c <;> rfl

section
variable {s : State} {b : Byte}

/-- The lookup of a key number reads the key's level (R230). -/
theorem State.keyPressed_of_key (h : b.toNat ≤ 15) : s.keyPressed b = s.keys.getLsbD b.toNat := if_pos h

/-- It records nothing (R230). -/
theorem State.checkKey_of_key (h : b.toNat ≤ 15) : s.checkKey b = s := if_pos h

/-- Above 0x0F no key is pressed (R230). -/
theorem State.keyPressed_of_noKey (h : 15 < b.toNat) : s.keyPressed b = false := if_neg (by omega)

/-- Such a lookup records its value (R230). -/
theorem State.checkKey_of_noKey (h : 15 < b.toNat) :
    s.checkKey b = { s with fault := s.recordOf .keyRange (some (BitVec.ofNat 16 b.toNat)) } := by
  rw [State.checkKey_eq, if_neg (by omega), BitVec.ofNat_toNat]

end

theorem exec_skp (s : State) (x : Reg) :
    exec (.skp x) s = .next ((s.checkKey (s.getV x)).skipIf (s.keyPressed (s.getV x))) := rfl

theorem exec_sknp (s : State) (x : Reg) :
    exec (.sknp x) s = .next ((s.checkKey (s.getV x)).skipIf (!s.keyPressed (s.getV x))) := rfl

/-- Settles O42: a key number is looked up with no record and the level decides the skip; above 0x0F the lookup records
its value and answers not pressed. -/
theorem keySkipsReadKeyLevel : Obligations.KeySkipsReadKeyLevel := by
  refine ⟨encodedAs_withFields (.skp 0), encodedAs_withFields (.sknp 0), ?_⟩
  rintro s x _ rfl
  refine ⟨fun hKey => ⟨?_, ?_⟩, fun hNoKey => ⟨?_, ?_⟩⟩
  · rw [exec_skp, State.checkKey_of_key hKey, State.keyPressed_of_key hKey, State.skipIf_eq]
  · rw [exec_sknp, State.checkKey_of_key hKey, State.keyPressed_of_key hKey, State.skipIf_not]
  · rw [exec_skp, State.checkKey_of_noKey hNoKey, State.keyPressed_of_noKey hNoKey]
    rfl
  · rw [exec_sknp, State.checkKey_of_noKey hNoKey, State.keyPressed_of_noKey hNoKey]
    rfl

/-! ### The four transitions of the key wait -/

theorem exec_ldVxK (s : State) (x : Reg) : exec (.ldVxK x) s = .next (s.waitKey x) := rfl

/-- The rows of R234 in which `FX0A` waits, each with the latch it leaves. -/
inductive State.KeepsWaiting (s : State) : KeyWait → Prop
  /-- Idle, and no key is pressed. -/
  | noKey (hIdle : s.kw = .idle) (hUp : ∀ j : Key, s.keyDown j = false) : s.KeepsWaiting .idle
  /-- Idle, and `k` is the lowest key pressed. -/
  | press {k : Key} (hIdle : s.kw = .idle) (hDown : s.keyDown k = true)
      (hLowest : ∀ j : Key, j < k → s.keyDown j = false) : s.KeepsWaiting (.latched k)
  /-- The latched key is still held. -/
  | hold {k : Key} (hLatched : s.kw = .latched k) (hDown : s.keyDown k = true) : s.KeepsWaiting (.latched k)

/-- Which row applies depends on the latch and the keys only. -/
theorem State.KeepsWaiting.congr {s t : State} {l : KeyWait} (h : s.KeepsWaiting l) (hKw : t.kw = s.kw)
    (hKeys : t.keys = s.keys) : t.KeepsWaiting l := by
  have hDown (j : Key) : t.keyDown j = s.keyDown j := congrArg (·.getLsbD j.val) hKeys
  cases h with
  | noKey hIdle hUp => exact .noKey (hKw.trans hIdle) fun j => (hDown j).trans (hUp j)
  | press hIdle hk hLowest =>
    exact .press (hKw.trans hIdle) ((hDown _).trans hk) fun j hj => (hDown j).trans (hLowest j hj)
  | hold hLatched hk => exact .hold (hKw.trans hLatched) ((hDown _).trans hk)

/-- To wait is to write the latch and to take pc back to the instruction (R234). -/
theorem State.KeepsWaiting.waitKey_eq {s : State} {l : KeyWait} (h : s.KeepsWaiting l) (x : Reg) :
    s.waitKey x = { s with kw := l, pc := s.pc - 2 } := by
  cases h with
  | noKey hIdle hUp => simp [State.waitKey, hIdle, State.latchKey, State.lowestKey_none hUp, State.rollBack]
  | press hIdle hDown hLowest =>
    simp [State.waitKey, hIdle, State.latchKey, State.lowestKey_some hDown hLowest, State.rollBack]
  | hold hLatched hDown => simp [State.waitKey, hLatched, hDown, State.rollBack]

/-- The release of the latched key stores its number and clears the latch (R234). -/
theorem State.waitKey_released {s : State} {k : Key} (hLatched : s.kw = .latched k) (hUp : s.keyDown k = false)
    (x : Reg) : s.waitKey x = { s.setV x (BitVec.ofNat 8 k.val) with kw := .idle } := by
  simp [State.waitKey, hLatched, hUp]

theorem key_toByte_toNat (k : Key) : (BitVec.ofNat 8 k.val : Byte).toNat = k.val :=
  (BitVec.toNat_ofNat ..).trans (Nat.mod_eq_of_lt (by omega))

/-- The register that the release writes holds the key number. -/
theorem State.waitKey_released_getV {s : State} {k : Key} (hLatched : s.kw = .latched k) (hUp : s.keyDown k = false)
    (x : Reg) : ((s.waitKey x).getV x).toNat = k.val := by
  rw [State.waitKey_released hLatched hUp]
  exact (congrArg _ (State.getV_setV_same s x _)).trans (key_toByte_toNat k)

/-- The release writes no other register. -/
theorem State.waitKey_released_getV_other {s : State} {k : Key} (hLatched : s.kw = .latched k)
    (hUp : s.keyDown k = false) {x r : Reg} (hr : r ≠ x) : (s.waitKey x).getV r = s.getV r := by
  rw [State.waitKey_released hLatched hUp]
  exact State.getV_setV_other s _ hr.symm

/-- Settles O43: three rows wait, the fourth stores the key number. -/
theorem keyWaitTransitions : Obligations.KeyWaitTransitions := by
  refine ⟨encodedAs_withFields (.ldVxK 0), fun s x k => ⟨fun hIdle hUp => ?_, fun hIdle hDown hLowest => ?_,
    fun hLatched hDown => ?_, fun hLatched hUp => ⟨_, exec_ldVxK s x, ?_, ?_, fun r hr => ?_, ?_⟩⟩⟩
  · rw [exec_ldVxK, (State.KeepsWaiting.noKey hIdle hUp).waitKey_eq, ← hIdle]
  · rw [exec_ldVxK, (State.KeepsWaiting.press hIdle hDown hLowest).waitKey_eq]
  · rw [exec_ldVxK, (State.KeepsWaiting.hold hLatched hDown).waitKey_eq, ← hLatched]
  · exact State.waitKey_released_getV hLatched hUp x
  · rw [State.waitKey_released hLatched hUp]
  · exact State.waitKey_released_getV_other hLatched hUp hr
  · rw [State.waitKey_released hLatched hUp]
    rfl

/-! ### Steps and runs at an `FX0A` -/

/-- What a waiting `FX0A` leaves of `s` in `t`: pc, the registers, memory and the host's side of the state. -/
structure State.StaysAt (s t : State) : Prop where
  pc : t.pc = s.pc
  v : t.v = s.v
  mem : t.mem = s.mem
  cfg : t.cfg = s.cfg
  keys : t.keys = s.keys
  loadStatus : t.out.loadStatus = s.out.loadStatus

theorem State.StaysAt.refl (s : State) : s.StaysAt s := ⟨rfl, rfl, rfl, rfl, rfl, rfl⟩

theorem State.StaysAt.trans {s t u : State} (h : s.StaysAt t) (h' : t.StaysAt u) : s.StaysAt u :=
  ⟨h'.pc.trans h.pc, h'.v.trans h.v, h'.mem.trans h.mem, h'.cfg.trans h.cfg, h'.keys.trans h.keys,
    h'.loadStatus.trans h.loadStatus⟩

/-- The next instruction is the same one. -/
theorem State.StaysAt.opcodeAt {s t : State} (h : s.StaysAt t) : t.opcodeAt = s.opcodeAt :=
  State.opcodeAt_congr h.pc h.mem h.cfg

/-- A run of `m + n` steps is one of `m` and then one of `n`. -/
theorem run_add_of_run {M : Host.Core} {m : Nat} {s t : M.State} (h : M.run m s = .next t) (n : Nat) :
    M.run (m + n) s = M.run n t := by
  induction m generalizing s with
  | zero => cases h; rw [Nat.zero_add]
  | succ m ih =>
    rw [Nat.succ_add]
    rw [Host.Core.run] at h ⊢
    split at h
    · exact ih h
    · cases h
    · cases h

section
variable {s : State} {x : Reg}

/-- A step at an `FX0A` in a waiting row stays there (R234, R235). -/
theorem step_of_keepsWaiting {l : KeyWait} {rest : List HostOp} (hl : s.out.loadStatus = .ok)
    (hp : (s.pending = [] ∧ rest = []) ∨ s.pending = .step :: rest) (hd : decodeOp s.opcodeAt = .ok (.ldVxK x))
    (hw : s.KeepsWaiting l) : ∃ t, step s = .next t ∧ s.StaysAt t ∧ t.kw = l ∧ t.pending = rest := by
  have hFetched : ({ s with pending := rest } : State).fetch.KeepsWaiting l := hw.congr (by simp) (by simp)
  refine ⟨_, (step_of_decoded hl hp hd).trans (exec_ldVxK _ x), ?_⟩
  rw [hFetched.waitKey_eq]
  exact ⟨⟨by simp, by simp, by simp, by simp, by simp, by simp⟩, rfl, by simp⟩

/-- While the latch and the keys stay in a waiting row, so does any number of steps (R236). -/
theorem run_of_keepsWaiting {rest : List HostOp} (n : Nat) (hl : s.out.loadStatus = .ok)
    (hp : (s.pending = [] ∧ rest = []) ∨ s.pending = List.replicate n .step ++ rest)
    (hd : decodeOp s.opcodeAt = .ok (.ldVxK x)) (hw : s.KeepsWaiting s.kw) :
    ∃ t : State, Sys2Proof.core.run n s = .next t ∧ s.StaysAt t ∧ t.kw = s.kw ∧ t.pending = rest := by
  induction n generalizing s with
  | zero => exact ⟨s, rfl, .refl s, rfl, hp.elim (fun ⟨hNil, hRest⟩ => hNil.trans hRest.symm) id⟩
  | succ n ih =>
    obtain ⟨left, hp, hLeft⟩ : ∃ left, ((s.pending = [] ∧ left = []) ∨ s.pending = .step :: left) ∧
        ((left = [] ∧ rest = []) ∨ left = List.replicate n .step ++ rest) := by
      obtain ⟨hNil, hRest⟩ | hSteps := hp
      · exact ⟨[], .inl ⟨hNil, rfl⟩, .inl ⟨rfl, hRest⟩⟩
      · exact ⟨_, .inr hSteps, .inr rfl⟩
    obtain ⟨u, hStep, hStays, hKw, hu⟩ := step_of_keepsWaiting hl hp hd hw
    obtain ⟨t, hRun, hStays', hKw', hRest⟩ := ih (hStays.loadStatus.trans hl) (hu ▸ hLeft)
      (hStays.opcodeAt ▸ hd) (hKw ▸ hw.congr hKw hStays.keys)
    exact ⟨t, (run_succ_of_step hStep n).trans hRun, hStays.trans hStays', hKw'.trans hKw, hRest⟩

/-- A step at an `FX0A` whose latched key is released completes it (R234). -/
theorem step_of_released {k : Key} {rest : List HostOp} (hl : s.out.loadStatus = .ok) (hp : s.pending = .step :: rest)
    (hd : decodeOp s.opcodeAt = .ok (.ldVxK x)) (hLatched : s.kw = .latched k) (hUp : s.keyDown k = false) :
    ∃ t, step s = .next t ∧ t.pc = s.pc + 2 ∧ t.kw = .idle ∧ (t.getV x).toNat = k.val ∧
      (∀ r, r ≠ x → t.getV r = s.getV r) ∧ t.pending = rest := by
  have hLatched' : ({ s with pending := rest } : State).fetch.kw = .latched k := by simp [hLatched]
  have hUp' : ({ s with pending := rest } : State).fetch.keyDown k = false := by simpa [State.keyDown] using hUp
  refine ⟨_, (step_of_decoded hl (.inr hp) hd).trans (exec_ldVxK _ x), ?_, ?_,
    State.waitKey_released_getV hLatched' hUp' x, fun r hr => ?_, by simp⟩
  · simp [State.waitKey_released hLatched' hUp']
  · rw [State.waitKey_released hLatched' hUp']
  · exact (State.waitKey_released_getV_other hLatched' hUp' hr).trans (State.getV_congr (State.fetch_v _) r)

/-- A press and a hold of any length latch the lowest key pressed and leave `FX0A` waiting (R235). -/
theorem run_of_press_hold {k : Key} {pressed : BitVec 16} {rest : List HostOp} (n : Nat)
    (hl : s.out.loadStatus = .ok) (hp : s.pending = .setKeys pressed :: (List.replicate (n + 1) .step ++ rest))
    (hd : decodeOp s.opcodeAt = .ok (.ldVxK x)) (hIdle : s.kw = .idle) (hDown : pressed.getLsbD k.val = true)
    (hLowest : ∀ j : Key, j < k → pressed.getLsbD j.val = false) :
    ∃ t : State, Sys2Proof.core.run (n + 2) s = .next t ∧ ({ s with keys := pressed } : State).StaysAt t ∧
      t.kw = .latched k ∧ t.pending = rest := by
  obtain ⟨u, hLatch, hStays, hLatched, hPending⟩ := step_of_keepsWaiting
    (s := { s with pending := List.replicate (n + 1) .step ++ rest, keys := pressed })
    hl (.inr rfl) hd (.press hIdle hDown hLowest)
  have hHeld : u.KeepsWaiting u.kw := by
    rw [hLatched]
    exact .hold hLatched ((congrArg (·.getLsbD k.val) hStays.keys).trans hDown)
  obtain ⟨t, hHold, hStays', hKw, hRest⟩ :=
    run_of_keepsWaiting n (hStays.loadStatus.trans hl) (.inr hPending) (hStays.opcodeAt ▸ hd) hHeld
  have hPressed : ({ s with keys := pressed } : State).StaysAt
      { s with pending := List.replicate (n + 1) .step ++ rest, keys := pressed } := ⟨rfl, rfl, rfl, rfl, rfl, rfl⟩
  refine ⟨t, ?_, hPressed.trans (hStays.trans hStays'), hKw.trans hLatched, hRest⟩
  rw [run_succ_of_step (step_of_setKeys hp), run_succ_of_step hLatch, hHold]

/-- The release of the latched key and one step complete `FX0A` (R235). -/
theorem run_of_release {k : Key} {released : BitVec 16} {rest : List HostOp} (hl : s.out.loadStatus = .ok)
    (hp : s.pending = .setKeys released :: .step :: rest) (hd : decodeOp s.opcodeAt = .ok (.ldVxK x))
    (hLatched : s.kw = .latched k) (hUp : released.getLsbD k.val = false) :
    ∃ t : State, Sys2Proof.core.run 2 s = .next t ∧ t.pc = s.pc + 2 ∧ t.kw = .idle ∧ (t.getV x).toNat = k.val ∧
      (∀ r, r ≠ x → t.getV r = s.getV r) ∧ t.pending = rest := by
  obtain ⟨t, hCommit, hAfter⟩ :=
    step_of_released (s := { s with pending := .step :: rest, keys := released }) hl rfl hd hLatched hUp
  refine ⟨t, ?_, hAfter⟩
  rw [run_succ_of_step (step_of_setKeys hp), run_succ_of_step hCommit]
  rfl

end

/-- Settles O44: with no key pressed an idle latch is in a waiting row at every step. -/
theorem keyWaitHoldsWithoutKeys : Obligations.KeyWaitHoldsWithoutKeys := by
  intro s x n hp hl hd hIdle hKeys
  have hUp (j : Key) : s.keyDown j = false := by simp [State.keyDown, hKeys]
  have hWaits : s.KeepsWaiting s.kw := by
    rw [hIdle]
    exact .noKey hIdle hUp
  obtain ⟨t, hRun, hStays, hKw, -⟩ := run_of_keepsWaiting n hl (.inl ⟨hp, rfl⟩) hd hWaits
  exact ⟨t, hRun, hStays.pc, hKw.trans hIdle, hStays.v, hStays.mem⟩

/-- Settles O45: the press and the hold leave `FX0A` waiting with its key latched, and the release completes it. -/
theorem keyPressHoldReleaseCommits : Obligations.KeyPressHoldReleaseCommits := by
  intro s x k pressed released n rest hl hd hIdle hDown hLowest hUp hp
  obtain ⟨u, hWait, hStays, hLatched, hPending⟩ := run_of_press_hold n hl hp hd hIdle hDown hLowest
  obtain ⟨t, hRelease, hpc, hKw, hNumber, hOther, hRest⟩ :=
    run_of_release (hStays.loadStatus.trans hl) hPending (hStays.opcodeAt ▸ hd) hLatched hUp
  refine ⟨⟨u, hWait, hStays.pc, hLatched, hStays.v⟩, t, (run_add_of_run hWait 2).trans hRelease, ?_, hKw, hNumber,
    fun r hr => ?_, hRest⟩
  · rw [hpc, hStays.pc]
  · exact (hOther r hr).trans (State.getV_congr hStays.v r)

end Sys2Proof.Machine
end

section
/-! PROOFS. The timer instructions: the whole effect of `FX07`, `FX15` and `FX18` (spec 46_timers.md R250 to R252). -/

namespace Sys2Proof.Machine

open Sys2Proof

/-- The whole effect of `FX07` (R250). -/
theorem exec_ldVxDt (s : State) (x : Reg) : exec (.ldVxDt x) s = .next (s.setV x s.dt) := rfl

/-- The whole effect of `FX15` (R251). -/
theorem exec_ldDtVx (s : State) (x : Reg) : exec (.ldDtVx x) s = .next { s with dt := s.getV x } := rfl

/-- The whole effect of `FX18` (R252). -/
theorem exec_ldStVx (s : State) (x : Reg) : exec (.ldStVx x) s = .next { s with st := s.getV x } := rfl

/-- Settles O46: the encodings are the table's rows, and each form's whole effect is the one write its rule names. -/
theorem timerInstructionsMoveTimers : Obligations.TimerInstructionsMoveTimers :=
  ⟨encodedAs_withFields (.ldVxDt 0), encodedAs_withFields (.ldDtVx 0), encodedAs_withFields (.ldStVx 0), fun s x =>
    ⟨exec_ldVxDt s x, exec_ldDtVx s x, exec_ldStVx s x⟩⟩

end Sys2Proof.Machine
end

section
/-! PROOFS. The fault register: what an instruction may record, that a record stays until the next LOAD, and that no
instruction aborts the run (spec 60_exceptions.md R260 to R265). -/

namespace Sys2Proof.Machine

open Sys2Proof

/-! ### No instruction aborts -/

/-- Settles O50: every arm of `exec` answers a next state; an error is at most a record in it (R263). -/
theorem noInstructionAborts : Obligations.NoInstructionAborts := by
  intro i s
  cases i <;> exact ⟨_, rfl⟩

/-! ### The cause of each instruction -/

/-- The instructions that read or write bytes at I (R52, R53). -/
def AccessesMemory (i : Instr) : Prop :=
  (∃ x y n, i = .drw x y n) ∨ (∃ x, i = .ldB x) ∨ (∃ x, i = .storeRegs x) ∨ ∃ x, i = .loadRegs x

/-- The instructions that look a key up by number (R230). -/
def LooksUpKey (i : Instr) : Prop := (∃ x, i = .skp x) ∨ ∃ x, i = .sknp x

/-- What the instruction may record in a state, the cause with its value: the table of R261. -/
inductive State.MayRecord (s : State) : Instr → FaultCode → Word → Prop
  /-- A call finds the stack full (R122). -/
  | overflow {nnn : Addr12} (hFull : s.sp.val = 16) : s.MayRecord (.call nnn) .stackOverflow 16
  /-- A return finds the stack empty (R120). -/
  | underflow (hEmpty : s.sp.val = 0) : s.MayRecord .ret .stackUnderflow 0
  /-- An access to memory is above 0xFFF (R52, R53). -/
  | addrRange {i : Instr} {a : Word} (hAccess : AccessesMemory i) (hOut : ¬ InRange a) : s.MayRecord i .addrRange a
  /-- A lookup is of no key (R230). -/
  | keyRange {i : Instr} {v : Byte} (hLookup : LooksUpKey i) (hNoKey : 15 < v.toNat) :
      s.MayRecord i .keyRange (v.setWidth 16)

/-- The fault register `f` is that of `s` after `i` has recorded a cause it may record, or nothing (R261, R262). -/
def State.RecordsOwn (s : State) (i : Instr) (f : FaultRecord) : Prop :=
  ∃ c o, f = s.recordOf c o ∧ ∀ info, o = some info → s.MayRecord i c info

theorem State.recordsOwn_callTo (s : State) (nnn : Addr12) (a : Word) :
    s.RecordsOwn (.call nnn) (s.callTo a).fault := by
  refine ⟨_, _, State.callTo_fault s a, fun info ho => ?_⟩
  split at ho <;> cases ho
  exact .overflow (by omega)

theorem State.recordsOwn_returnFromCall (s : State) : s.RecordsOwn .ret s.returnFromCall.fault := by
  refine ⟨_, _, State.returnFromCall_fault s, fun info ho => ?_⟩
  split at ho <;> cases ho
  exact .underflow (by omega)

/-- An access to a range of addresses records the first of them that is out of range (R264). -/
theorem State.recordsOwn_range (s : State) (n : Nat) {i : Instr} (hAccess : AccessesMemory i) :
    s.RecordsOwn i (s.recordOf .addrRange (s.firstOutOfRange n)) :=
  ⟨_, _, rfl, fun _ ho => .addrRange hAccess (of_decide_eq_true (List.find?_some ho :))⟩

theorem State.recordsOwn_keySkip (s : State) (v : Byte) (c : Bool) {i : Instr} (hLookup : LooksUpKey i) :
    s.RecordsOwn i ((s.checkKey v).skipIf c).fault := by
  refine ⟨.keyRange, _, by rw [State.skipIf_fault, State.checkKey_eq], fun info ho => ?_⟩
  split at ho <;> cases ho
  exact .keyRange hLookup (by omega)

/-- All that an instruction does to the fault register is to record its own cause, or nothing. -/
theorem exec_recordsOwn {i : Instr} {s t : State} (h : exec i s = .next t) : s.RecordsOwn i t.fault := by
  cases i with
  | ret => cases h; exact s.recordsOwn_returnFromCall
  | call nnn => cases h; exact s.recordsOwn_callTo nnn _
  | drw x y n =>
    rw [exec_drw] at h
    cases h
    exact s.recordsOwn_range n (.inl ⟨x, y, n, rfl⟩)
  | ldB x =>
    rw [exec_ldB] at h
    cases h
    rw [State.storeDigits_fault]
    exact s.recordsOwn_range 3 (.inr (.inl ⟨x, rfl⟩))
  | storeRegs x =>
    cases h
    rw [State.storeUpTo_fault]
    exact s.recordsOwn_range _ (.inr (.inr (.inl ⟨x, rfl⟩)))
  | loadRegs x =>
    cases h
    rw [State.loadUpTo_fault]
    exact s.recordsOwn_range _ (.inr (.inr (.inr ⟨x, rfl⟩)))
  | skp x => cases h; exact s.recordsOwn_keySkip _ _ (.inl ⟨x, rfl⟩)
  | sknp x => cases h; exact s.recordsOwn_keySkip _ _ (.inr ⟨x, rfl⟩)
  | _ => cases h; exact ⟨.none, none, by simp [State.recordOf], nofun⟩

/-- A record leaves the register alone or, with none recorded, writes this step's address and opcode (R262). -/
theorem State.recordOf_cases (s : State) (c : FaultCode) (o : Option Word) :
    s.recordOf c o = s.fault ∨
      ∃ info, o = some info ∧ s.fault.code = .none ∧ s.recordOf c o = { code := c, pc := s.pc0, op := s.op, info } := by
  cases o with
  | none => exact .inl rfl
  | some info =>
    by_cases hNone : s.fault.code = .none
    · exact .inr ⟨info, rfl, hNone, if_pos hNone⟩
    · exact .inl (if_neg hNone)

/-- Settles O54: the register is kept, or the record is of the one cause that the instruction may record. -/
theorem eachInstructionRaisesOnlyItsCause : Obligations.EachInstructionRaisesOnlyItsCause := by
  intro i s t h
  obtain ⟨c, o, hRecord, hOwn⟩ := exec_recordsOwn h
  obtain hKept | ⟨info, ho, hNone, hNew⟩ := s.recordOf_cases c o
  · exact .inl (hRecord.trans hKept)
  refine .inr ⟨hNone, ?_⟩
  rw [hRecord, hNew]
  refine ⟨rfl, rfl, ?_⟩
  cases hOwn info ho with
  | overflow hFull => exact .inl ⟨rfl, rfl, hFull, _, rfl⟩
  | underflow hEmpty => exact .inr (.inl ⟨rfl, rfl, hEmpty, rfl⟩)
  | addrRange hAccess hOut => exact .inr (.inr (.inl ⟨rfl, Nat.lt_of_succ_le (Nat.le_of_not_lt hOut), hAccess⟩))
  | keyRange hLookup hNoKey =>
    refine .inr (.inr (.inr ⟨rfl, ?_, hLookup⟩))
    rwa [BitVec.toNat_setWidth_of_le (by decide)]

/-! ### The first fault stays -/

/-- A fetch keeps a recorded fault (R262). -/
theorem State.fetch_keeps_fault {s : State} (h : s.fault.code ≠ .none) : s.fetch.fault = s.fault := by
  rw [State.fetch_eq]
  exact State.recordOf_sticky (s := { s with pc0 := s.pc, op := s.opcodeAt }) h _ _

/-- So does a whole cycle. -/
theorem cycle_keeps_fault {s t : State} (hs : s.fault.code ≠ .none) (h : cycle s = .next t) : t.fault = s.fault := by
  have hFetch := State.fetch_keeps_fault hs
  obtain ⟨i, -, he⟩ | ⟨r, -, rfl⟩ := cycle_cases h
  · obtain ⟨c, o, -, hRecord⟩ := exec_records he
    rw [hRecord, State.recordOf_sticky (hFetch ▸ hs), hFetch]
  · exact hFetch

/-- So does a tick: each of its cycles does, and the timer update does not write the register. -/
theorem tick_keeps_fault {s t : State} (hs : s.fault.code ≠ .none) (h : tick s = .next t) : t.fault = s.fault := by
  obtain ⟨u, hu, rfl⟩ := tick_cases h
  have hBatch : u.fault = s.fault :=
    batch_keeps (P := fun v => v.fault = s.fault) (s := { s with out := { s.out with tickDirty := false } })
      (fun _ _ hv hc => (cycle_keeps_fault (hv ▸ hs) hc).trans hv) (fun _ hv => hv) rfl hu
  exact hBatch

/-- With neither LOAD nor RELOAD next, a step is a cycle, a tick or a change of the keys (R281). -/
theorem step_cases_of_no_load {s t : State} (hLoad : ∀ rom rest, s.pending ≠ .load rom :: rest)
    (hReload : ∀ rest, s.pending ≠ .reload :: rest) (h : step s = .next t) :
    ∃ p, cycle { s with pending := p } = .next t ∨ tick { s with pending := p } = .next t ∨
      ∃ keys, t = { s with pending := p, keys := keys } := by
  unfold step perform at h
  split at h
  · exact ⟨s.pending, .inl (opStep_eq_cycle h)⟩
  · next rest _ => exact ⟨rest, .inl (opStep_eq_cycle h)⟩
  · next rest _ => exact ⟨rest, .inr (.inl (opTick_eq_tick h))⟩
  · next hp => exact absurd hp (hLoad _ _)
  · next hp => exact absurd hp (hReload _)
  · next keys rest _ => cases h; exact ⟨rest, .inr (.inr ⟨keys, rfl⟩)⟩

/-- No step but LOAD and RELOAD changes a recorded fault (R262). -/
theorem step_keeps_fault {s t : State} (hs : s.fault.code ≠ .none) (hLoad : ∀ rom rest, s.pending ≠ .load rom :: rest)
    (hReload : ∀ rest, s.pending ≠ .reload :: rest) (h : step s = .next t) : t.fault = s.fault := by
  obtain ⟨p, hc | ht | ⟨keys, rfl⟩⟩ := step_cases_of_no_load hLoad hReload h
  · exact cycle_keeps_fault (s := { s with pending := p }) hs hc
  · exact tick_keeps_fault (s := { s with pending := p }) hs ht
  · rfl

theorem step_of_reload {s : State} {rest : List HostOp} (hp : s.pending = .reload :: rest) :
    step s = .next (({ s with pending := rest } : State).load s.lastRom) := by
  simp [step, perform, hp, State.reload]

/-- Settles O17: the two records, then a step by its cases; LOAD and RELOAD reset the register. -/
theorem firstFaultIsKeptUntilLoad : Obligations.FirstFaultIsKeptUntilLoad := by
  refine ⟨fun _ _ _ => rfl, fun s hOut hNone => ?_, fun _ _ => step_keeps_fault, fun s t hp h => ?_⟩
  · rw [State.fetch_fault_outOfRange hOut hNone, s.ite_inRange_peek, s.ite_inRange_peek]
    exact ⟨rfl, rfl⟩
  · obtain ⟨rom, rest, hp⟩ | ⟨rest, hp⟩ := hp
    · rw [step_of_load hp] at h
      cases h
      exact State.load_fault _ rom
    · rw [step_of_reload hp] at h
      cases h
      exact State.load_fault _ s.lastRom

end Sys2Proof.Machine
end

section
/-! PROOFS. The tick and the timers: a TICK is its STEPs and then the timer update, and a STEP counts no timer down
(spec 60_exceptions.md R270 to R275). -/

namespace Sys2Proof.Machine

open Sys2Proof

/-! ### Who writes the timers -/

/-- Only `FX15` writes dt, and it writes V[X] (R29, R251). -/
theorem exec_dt {i : Instr} {s t : State} (h : exec i s = .next t) :
    t.dt = s.dt ∨ ∃ x, i = .ldDtVx x ∧ t.dt = s.getV x := by
  cases i with
  | ldDtVx x => cases h; exact .inr ⟨x, rfl, rfl⟩
  | _ => cases h; exact .inl (by simp)

/-- Only `FX18` writes st, and it writes V[X] (R30, R252). -/
theorem exec_st {i : Instr} {s t : State} (h : exec i s = .next t) :
    t.st = s.st ∨ ∃ x, i = .ldStVx x ∧ t.st = s.getV x := by
  cases i with
  | ldStVx x => cases h; exact .inr ⟨x, rfl, rfl⟩
  | _ => cases h; exact .inl (by simp)

/-- A part of the state that only the instructions of one form write, each with V[X], a cycle writes only by decoding
such an instruction. -/
theorem cycle_writes_only {f : State → Byte} {form : Reg → Instr} (hFetch : ∀ s : State, f s.fetch = f s)
    (hUnimp : ∀ s : State, f s.markUnimp = f s)
    (hExec : ∀ {i s t}, exec i s = .next t → f t = f s ∨ ∃ x, i = form x ∧ f t = s.getV x) {s t : State}
    (h : cycle s = .next t) : f t = f s ∨ ∃ x, decodeOp s.opcodeAt = .ok (form x) ∧ f t = s.getV x := by
  obtain ⟨i, hd, he⟩ | ⟨r, -, rfl⟩ := cycle_cases h
  · obtain hKept | ⟨x, rfl, hSet⟩ := hExec he
    · exact .inl (hKept.trans (hFetch s))
    · exact .inr ⟨x, hd, hSet.trans (State.getV_congr s.fetch_v x)⟩
  · exact .inl ((hUnimp _).trans (hFetch s))

/-- Settles O49: a STEP is a cycle, and a cycle writes a timer only by its own instruction. -/
theorem noStepCountsTimersDown : Obligations.NoStepCountsTimersDown := by
  intro s t hp h
  obtain ⟨p, hc⟩ := cycle_of_step hp h
  exact ⟨cycle_writes_only (s := { s with pending := p }) State.fetch_dt State.markUnimp_dt exec_dt hc,
    cycle_writes_only (s := { s with pending := p }) State.fetch_st State.markUnimp_st exec_st hc⟩

/-! ### The steps of a tick -/

/-- Some of the first `n` steps from `s` ends with `dirty` (R273). -/
def State.DirtyWithin (s : State) (n : Nat) : Prop :=
  ∃ k < n, ∃ w : State, Sys2Proof.core.run (k + 1) s = .next w ∧ w.out.dirty = true

/-- It is the first step or one of those after it. -/
theorem State.dirtyWithin_succ {s t : State} (h : step s = .next t) (n : Nat) :
    s.DirtyWithin (n + 1) ↔ t.out.dirty = true ∨ t.DirtyWithin n := by
  unfold State.DirtyWithin
  rw [Nat.exists_lt_succ_left]
  refine or_congr ?_ ?_
  · rw [run_succ_of_step h]
    exact ⟨fun ⟨_, hRun, hw⟩ => by cases hRun; exact hw, fun ht => ⟨t, rfl, ht⟩⟩
  · simp only [run_succ_of_step h]

/-- Gathering writes only what no instruction reads (R270). -/
theorem State.gatherDirty_unread (s : State) (p : List HostOp) (d : Bool) :
    (s.unread s.st p d).gatherDirty = s.unread s.st p (d || s.out.dirty) := rfl

/-- The batch of a tick ends as that many steps do, whatever is pending and has been gathered before it; what it gathers
is whether one of them was dirty (R270, R273). -/
theorem batch_eq_run {s : State} (n : Nat) (hp : s.pending = []) (hl : s.out.loadStatus = .ok) (p : List HostOp)
    (d : Bool) : ∃ (u : State) (d' : Bool), Sys2Proof.core.run n s = .next u ∧
      (d' = true ↔ d = true ∨ s.DirtyWithin n) ∧ batch n (s.unread s.st p d) = .next (u.unread u.st p d') := by
  induction n generalizing s d with
  | zero => exact ⟨s, d, rfl, by simp [State.DirtyWithin], rfl⟩
  | succ n ih =>
    obtain ⟨t, ht⟩ := cycle_completes s
    obtain ⟨hPending, -, -, -, hStatus, -⟩ := cycle_host_frame ht
    have hStep : step s = .next t := (step_of_nil hp hl).trans ht
    obtain ⟨u, d', hRun, hDirty, hBatch⟩ := ih (hPending.trans hp) (hStatus.trans hl) (d || t.out.dirty)
    refine ⟨u, d', (run_succ_of_step hStep n).trans hRun, ?_, ?_⟩
    · rw [hDirty, State.dirtyWithin_succ hStep, Bool.or_eq_true, or_assoc]
    · simp only [batch, cycle_hostFields ht p d, State.gatherDirty_unread, hBatch]

theorem tick_of_batch {s u : State}
    (h : batch s.cfg.stepsPerTick { s with out := { s.out with tickDirty := false } } = .next u) :
    tick s = .next u.endTick := by
  rw [tick, h]

/-- Settles O47: the batch ends as the run does, but with the other operations pending and the dirty outputs gathered,
and the end of the tick is the timer update. -/
theorem tickIsStepsThenTimerUpdate : Obligations.TickIsStepsThenTimerUpdate := by
  rintro s rest _ hp hl rfl
  obtain ⟨u, d, hRun, hDirty, hBatch⟩ :=
    batch_eq_run (s := { s with pending := [] }) (s.cfg.ips / 60) rfl hl rest false
  refine ⟨u, d, hRun, hDirty.trans (by simp [State.DirtyWithin]), ?_⟩
  rw [step_of_tick hp hl]
  exact tick_of_batch (s := { s with pending := rest }) hBatch

/-- Settles O48: with no step in it, a TICK is the timer update alone. -/
theorem tickOfNoStepsOnlyCountsDown : Obligations.TickOfNoStepsOnlyCountsDown := by
  intro s rest hp hl hIps
  obtain ⟨u, d, hRun, hDirty, hStep⟩ := tickIsStepsThenTimerUpdate s rest 0 hp hl (Nat.div_eq_of_lt hIps).symm
  cases hRun
  refine ⟨_, hStep, ?_, rfl, rfl, rfl, rfl⟩
  exact Bool.eq_false_iff.2 fun hd => by simpa using hDirty.1 hd

end Sys2Proof.Machine
end

section
/-! PROOFS. The end of a run: a jump to itself (spec 60_exceptions.md R289, 41_control_flow.md R121). -/

namespace Sys2Proof.Machine

open Sys2Proof

/-- The low byte of the opcode at pc is the byte at pc + 1 (R54). -/
theorem State.nnField_opcodeAt (s : State) : nnField s.opcodeAt = s.peek (s.pc + 1) :=
  BitVec.extractLsb'_append_eq_right

/-- Both bytes of a self-jump are in memory: at 0xFFF the low byte would read as 0x00 and the jump would not be to 0xFFF
(R82). -/
theorem State.AtSelfJump.inRange {s : State} (h : s.AtSelfJump) : InRange s.pc ∧ InRange (s.pc + 1) := by
  obtain ⟨nnn, hd, hpc⟩ := h
  have hLast : nnn ≠ 0xFFF := by
    rintro rfl
    have hOut : ¬ InRange (s.pc + 1) := by rw [← hpc]; decide
    have hLow : nnField s.opcodeAt = 0 := s.nnField_opcodeAt.trans (s.peek_outOfRange hOut)
    rw [(decodeOp_eq_ok_iff rfl).1 hd] at hLow
    exact absurd hLow (by decide)
  rw [← hpc]
  unfold InRange memSize
  constructor <;> bv_omega

/-- A step at a self-jump writes nothing but the step's own latches and outputs, and stays there (R121, R289). -/
theorem step_of_selfJump {s : State} (h : s.AtSelfJump) (hp : s.pending = []) (hl : s.out.loadStatus = .ok) :
    step s = .next { s with pc0 := s.pc, op := s.opcodeAt, out := { s.out with dirty := false, unimp := false } } := by
  obtain ⟨hHigh, hLow⟩ := h.inRange
  obtain ⟨nnn, hd, hpc⟩ := h
  rw [step_of_nil hp hl, cycle_of_decoded hd, exec_jp, State.fetch_inRange hHigh hLow, hpc]

/-- Settles O57, by induction on the number of steps: each leaves what makes pc a self-jump. -/
theorem selfJumpChangesNothing : Obligations.SelfJumpChangesNothing := by
  intro s n h hp hl
  induction n generalizing s with
  | zero => exact ⟨s, rfl, h, rfl⟩
  | succ n ih =>
    obtain ⟨t, hRun, hAt, hFrame⟩ := ih
      { s with pc0 := s.pc, op := s.opcodeAt, out := { s.out with dirty := false, unimp := false } } h hp hl
    exact ⟨t, (run_succ_of_step (step_of_selfJump h hp hl) n).trans hRun, hAt, hFrame⟩

end Sys2Proof.Machine
end

section
/-! PROOFS. Reset, LOAD and RELOAD: what the registers, the display and memory hold after them, who writes the bytes
kept for RELOAD, and which operations are refused (spec 70_reset_and_hazards.md R300 to R305,
93_implementation_defined.md U14). -/

namespace Sys2Proof.Machine

open Sys2Proof

/-! ### The reset values -/

theorem State.reset_getV (r : Reg) : State.reset.getV r = 0 := Vector.getElem_replicate ..

theorem State.reset_stack {j : Nat} (hj : j < 16) : State.reset.stack[j]? = some 0 :=
  Vector.getElem?_replicate_of_lt hj

theorem State.reset_fb_bit (k : Nat) : State.reset.fb.bit k = false := Screen.pixel_replicate_zero ..

theorem Config.resetByte_of_font (c : Config) {a : Nat} (ha : a < 80) : some (c.resetByte a) = c.fontTable[a]? := by
  rw [Config.resetByte, dif_pos ha, Vector.getElem?_eq_getElem ha]

theorem Config.resetByte_of_ge (c : Config) {a : Nat} (ha : 80 ≤ a) : c.resetByte a = 0 := dif_neg (Nat.not_lt.2 ha)

/-- An address that memory does not list, in range or not, reads as its reset byte (R34, R52). -/
theorem State.peek_of_find_none {s : State} {a : Word} (h : Memory.find s.mem a.toNat = none) :
    s.peek a = s.cfg.resetByte a.toNat := by
  unfold State.peek
  split
  · rw [Memory.read, h, Option.getD_none]
  · next hOut => exact (Config.resetByte_of_ge _ (by unfold InRange memSize at hOut; omega)).symm

theorem State.reset_peek (a : Word) : State.reset.peek a = State.reset.cfg.resetByte a.toNat :=
  State.peek_of_find_none rfl

/-- Settles O8: the values of the reset state, memory's from the reset bytes. -/
theorem resetStateValues : Obligations.ResetStateValues :=
  ⟨State.reset_getV, rfl, rfl, rfl, fun _ => State.reset_stack, rfl, rfl, fun k _ => State.reset_fb_bit k,
    fun a ha => (congrArg some (State.reset_peek a)).trans (Config.resetByte_of_font _ ha),
    fun a ha => (State.reset_peek a).trans (Config.resetByte_of_ge _ ha), rfl, rfl⟩

/-- Settles O13: nothing is listed, recorded or latched, and the empty program fits. -/
theorem invariantHoldsAtReset : Obligations.InvariantHoldsAtReset where
  mem := Memory.wf_nil _
  fault := fun _ => rfl
  latch := State.latchedAtWait_of_idle rfl
  rom := iff_of_true rfl (Nat.zero_le _)

/-! ### Memory after a LOAD -/

/-- After a LOAD that fits, every address reads as the loader's copy left it (R300). -/
theorem State.peek_load_fits (s : State) {rom : List Byte} (hFits : rom.length ≤ romMax) (a : Word) :
    (s.load rom).peek a =
      if h : romBase ≤ a.toNat ∧ a.toNat < romBase + rom.length then rom[a.toNat - romBase]
      else s.cfg.resetByte a.toNat := by
  have hEnd : romBase + rom.length ≤ memSize := by unfold romBase memSize; unfold romMax at hFits; omega
  rw [State.load_fits s hFits]
  unfold State.peek
  split
  · exact Memory.read_writeAll (Memory.wf_nil _) hEnd _
  · next hOut =>
    unfold InRange memSize at hOut
    rw [dif_neg (by unfold memSize at hEnd; omega), Config.resetByte_of_ge _ (by omega)]

/-- The program stands from 0x200 up (R300, R301). -/
theorem State.peek_load_rom (s : State) {rom : List Byte} (hFits : rom.length ≤ romMax) {j : Nat} {b : Byte}
    (hb : rom[j]? = some b) : (s.load rom).peek (BitVec.ofNat 16 (0x200 + j)) = b := by
  obtain ⟨hj, rfl⟩ := List.getElem?_eq_some_iff.1 hb
  have hAddr : (BitVec.ofNat 16 (0x200 + j)).toNat = romBase + j :=
    (BitVec.toNat_ofNat ..).trans (Nat.mod_eq_of_lt (by unfold romMax at hFits; omega))
  rw [State.peek_load_fits s hFits, dif_pos (by omega)]
  simp only [hAddr, Nat.add_sub_cancel_left]

/-- Outside an accepted program every address holds its reset byte (R301). -/
theorem State.peek_load_outside (s : State) {rom : List Byte} (hFits : rom.length ≤ romMax) {a : Word}
    (ha : a.toNat < romBase ∨ romBase + rom.length ≤ a.toNat) :
    (s.load rom).peek a = s.cfg.resetByte a.toNat := by
  rw [State.peek_load_fits s hFits, dif_neg (by omega)]

/-- A rejected program leaves no byte: every address holds its reset byte (R303). -/
theorem State.peek_load_tooLarge (s : State) {rom : List Byte} (hFits : ¬ rom.length ≤ romMax) (a : Word) :
    (s.load rom).peek a = s.cfg.resetByte a.toNat := by
  rw [State.load_tooLarge s hFits]
  exact State.peek_of_find_none rfl

/-! ### LOAD -/

/-- The part of R301's table that does not depend on the program: every element of the core but memory. -/
structure State.RegistersReset (t : State) : Prop where
  v : ∀ r, t.getV r = 0
  i : t.i = 0
  pc : t.pc = 0x200
  sp : t.sp = 0
  stack : ∀ j < 16, t.stack[j]? = some 0
  dt : t.dt = 0
  st : t.st = 0
  fb : ∀ k < 2048, t.fb.bit k = false
  kw : t.kw = .idle
  fault : t.fault = .clear

/-- A LOAD, accepted or rejected, resets it (R301, R303). -/
theorem State.load_registersReset (s : State) (rom : List Byte) : (s.load rom).RegistersReset := by
  unfold State.load
  split <;> exact ⟨State.reset_getV, rfl, rfl, rfl, fun _ => State.reset_stack, rfl, rfl,
    fun k _ => State.reset_fb_bit k, rfl, rfl⟩

/-- What a LOAD keeps: its own bytes, and the host's inputs and parameters (R304, log 23). -/
theorem State.load_hostFields (s : State) (rom : List Byte) :
    (s.load rom).lastRom = rom ∧ (s.load rom).cfg = s.cfg ∧ (s.load rom).keys = s.keys ∧
      (s.load rom).pending = s.pending := by
  unfold State.load
  split <;> exact ⟨rfl, rfl, rfl, rfl⟩

theorem State.load_lastRom (s : State) (rom : List Byte) : (s.load rom).lastRom = rom := (s.load_hostFields rom).1

/-- A LOAD answers OK exactly for a program that fits (R303). -/
theorem State.load_ok_iff (s : State) (rom : List Byte) :
    (s.load rom).out.loadStatus = .ok ↔ rom.length ≤ romMax := by
  have hStatus := s.load_romStatus rom
  rwa [State.RomStatus, State.load_lastRom] at hStatus

/-- Settles O9: the registers are reset, memory holds the program over the reset bytes, and the host's fields stay. -/
theorem loadLeavesResetStateAndRom : Obligations.LoadLeavesResetStateAndRom := by
  intro s rom rest hp hFits
  have hReg := State.load_registersReset { s with pending := rest } rom
  have hOutside {a : Word} := State.peek_load_outside { s with pending := rest } (a := a) hFits
  refine ⟨_, step_of_load hp, (State.load_ok_iff _ rom).2 hFits, hReg.v, hReg.i, hReg.pc, hReg.sp, hReg.stack,
    hReg.dt, hReg.st, hReg.fb, fun a ha => ?font, fun a hLow hHigh => ?gap,
    fun _ _ => State.peek_load_rom _ hFits, fun a ha => ?above, hReg.kw, hReg.fault, State.load_hostFields _ rom⟩
  case font =>
    rw [hOutside (.inl (by unfold romBase; omega))]
    exact Config.resetByte_of_font _ ha
  case gap =>
    rw [hOutside (.inl hHigh)]
    exact Config.resetByte_of_ge _ hLow
  case above =>
    rw [hOutside (.inr ha)]
    exact Config.resetByte_of_ge _ (by omega)

theorem LoadStatus.eq_romTooLarge_iff (l : LoadStatus) : l = .romTooLarge ↔ l ≠ .ok := by
  cases l <;> decide

/-- Settles O10: the status says whether the program fits; a rejected LOAD copies nothing over the reset bytes. -/
theorem rejectedLoadLeavesNoRom : Obligations.RejectedLoadLeavesNoRom := by
  intro s rom rest hp
  have hReg := State.load_registersReset { s with pending := rest } rom
  have hStatus := State.load_ok_iff { s with pending := rest } rom
  refine ⟨_, step_of_load hp, ?status, hStatus, fun hLarge => ?rejected,
    fun hFull _ _ => State.peek_load_rom _ hFull.le, fun hEmpty a ha => ?empty⟩
  case status => exact (LoadStatus.eq_romTooLarge_iff _).trans (hStatus.not.trans Nat.not_le)
  case rejected =>
    have hPeek := State.peek_load_tooLarge { s with pending := rest } (rom := rom) hLarge.not_ge
    exact ⟨hReg.v, hReg.i, hReg.pc, hReg.sp, hReg.stack, hReg.dt, hReg.st, hReg.fb,
      fun a ha => (congrArg some (hPeek a)).trans (Config.resetByte_of_font _ ha),
      fun a ha => (hPeek a).trans (Config.resetByte_of_ge _ ha), hReg.kw, hReg.fault⟩
  case empty =>
    have hOutside : romBase + rom.length ≤ a.toNat := by rw [hEmpty]; exact ha
    rw [State.peek_load_outside _ (by rw [hEmpty]; exact Nat.zero_le _) (.inr hOutside)]
    exact Config.resetByte_of_ge _ (by omega)

/-! ### RELOAD -/

theorem cycle_lastRom {s t : State} (h : cycle s = .next t) : t.lastRom = s.lastRom := by
  obtain ⟨-, -, -, hRom, -⟩ := cycle_host_frame h
  exact hRom

/-- A tick keeps the bytes of the last LOAD: each of its cycles does. -/
theorem tick_lastRom {s t : State} (h : tick s = .next t) : t.lastRom = s.lastRom := by
  obtain ⟨u, hu, rfl⟩ := tick_cases h
  have hBatch : u.lastRom = s.lastRom :=
    batch_keeps (P := fun v => v.lastRom = s.lastRom) (s := { s with out := { s.out with tickDirty := false } })
      (fun _ _ hv hc => (cycle_lastRom hc).trans hv) (fun _ hv => hv) rfl hu
  exact hBatch

/-- No step but LOAD changes the bytes kept for RELOAD (R304). -/
theorem step_lastRom {s t : State} (hLoad : ∀ rom rest, s.pending ≠ .load rom :: rest) (h : step s = .next t) :
    t.lastRom = s.lastRom := by
  by_cases hReload : ∃ rest, s.pending = .reload :: rest
  · obtain ⟨rest, hp⟩ := hReload
    rw [step_of_reload hp] at h
    cases h
    exact State.load_lastRom _ _
  · obtain ⟨p, hc | ht | ⟨keys, rfl⟩⟩ := step_cases_of_no_load hLoad (fun rest hp => hReload ⟨rest, hp⟩) h
    · exact cycle_lastRom (s := { s with pending := p }) hc
    · exact tick_lastRom (s := { s with pending := p }) ht
    · rfl

/-- Settles O11: both operations load the kept bytes, a LOAD keeps its own, and every other step keeps those there. -/
theorem reloadRepeatsLastLoad : Obligations.ReloadRepeatsLastLoad := by
  refine ⟨fun s rest hp => ?_, fun s rom rest hp => ⟨_, step_of_load hp, State.load_lastRom _ rom⟩,
    fun _ _ h hLoad => step_lastRom hLoad h⟩
  rw [step_of_reload hp, step_of_load (s := { s with pending := .load s.lastRom :: rest }) rfl]

/-! ### Refusals -/

/-- A tick answers a next state: its cycles do (R260, R270). -/
theorem tick_completes (s : State) : ∃ t, tick s = .next t := by
  obtain ⟨u, hu⟩ := batch_completes s.cfg.stepsPerTick { s with out := { s.out with tickDirty := false } }
  exact ⟨_, tick_of_batch hu⟩

/-- After an accepted LOAD every operation answers a next state (R260, R281). -/
theorem step_completes {s : State} (hl : s.out.loadStatus = .ok) : ∃ t, step s = .next t := by
  cases hp : s.pending with
  | nil => rw [step_of_nil hp hl]; exact cycle_completes _
  | cons op rest =>
    cases op with
    | load rom => exact ⟨_, step_of_load hp⟩
    | reload => exact ⟨_, step_of_reload hp⟩
    | tick => rw [step_of_tick hp hl]; exact tick_completes _
    | step => rw [step_of_step hp hl]; exact cycle_completes _
    | setKeys keys => exact ⟨_, step_of_setKeys hp⟩

/-- After a rejected LOAD a run is refused: STEP, by name or by default, and TICK (U14, log 9). -/
theorem step_refused {s : State} (hl : s.out.loadStatus = .romTooLarge)
    (hp : s.pending = [] ∨ (∃ rest, s.pending = .step :: rest) ∨ ∃ rest, s.pending = .tick :: rest) :
    step s = .refused .afterRejectedLoad := by
  obtain hp | ⟨rest, hp⟩ | ⟨rest, hp⟩ := hp
  · simp only [step, perform, hp, opStep, hl]
  · simp only [step, perform, hp, opStep, hl]
  · simp only [step, perform, hp, opTick, hl]

/-- Settles O12: the refusals, and one lemma per operation that goes on. -/
theorem onlyRunsAfterRejectedLoadAreRefused : Obligations.OnlyRunsAfterRejectedLoadAreRefused := by
  refine fun s => ⟨step_refused, fun _ hp => ?_, fun _ _ => step_of_setKeys, step_completes⟩
  obtain ⟨rom, rest, hp⟩ | ⟨rest, hp⟩ := hp
  · exact ⟨_, step_of_load hp⟩
  · exact ⟨_, step_of_reload hp⟩

end Sys2Proof.Machine
end
